-- ==== Sys2Proof/Word.lean ====
section
/-! DEFINITION. The widths of the block's values (00_scope.md R10, 10_state.md R22). Every one is unsigned (R11). -/

namespace Sys2Proof

/-- One octet: an unsigned 8-bit field (R13, glossary). -/
abbrev Octet := BitVec 8

/-- A 32-bit port value: an IPv4 address operand, a MASK or a NET (R22). It is never a memory address (R69). -/
abbrev Word := BitVec 32

/-- The 64-bit request word REQ = A:B (R39). -/
abbrev Req := BitVec 64

/-- The 8-bit PLEN field of a response (R22, R40). -/
abbrev PlenField := BitVec 8

/-- The 64-bit COUNT field of a response (R22, R61). -/
abbrev CountField := BitVec 64

/-- What identifies a requester. The block has no identifiers of its own (R79): the number belongs to the transaction,
and no value of a response depends on it. DESIGN CHOICE, safe: any number of requesters is admitted (log 11). -/
abbrev RequesterId := Nat

end Sys2Proof
end

