-- ==== Sys2Proof/Syntax.lean ====
section
/-! DEFINITION. The instruction set: one operation (30_encoding.md R42), one row of spec/opcode_table.json, one constructor. -/

namespace Sys2Proof

/-- A request of the block. The three contracts computePrefix, deriveNetwork and deriveAddressCount are internal units that
no request selects alone (R42), so they have no constructor. -/
inductive Instr where
  /-- `CIDR A, B` (42_cidr_operation.md R65): the common prefix of two addresses, with its mask, network and count. -/
  | cidr (a b : Word)
  deriving DecidableEq, Repr

end Sys2Proof
end

