-- ==== Sys2Proof/Machine/Operands.lean ====
section
/-! DEFINITION. Operand assembly (30_encoding.md R38, R41) and the counting primitives of the notation (00_scope.md R12). Operands
arrive whole on the ports: there are no immediates, no register specifiers, no addressing modes (R41, R69). -/

namespace Sys2Proof

/-- A 4-octet value in network byte order, octet 0 first and most significant (R13, R26, R27). -/
structure Octets where
  o0 : Octet
  o1 : Octet
  o2 : Octet
  o3 : Octet
  deriving DecidableEq, Repr

/-- The octet that occupies bits [31−8k : 24−8k] of a 32-bit value (R38). -/
def octetOf (v : Word) (k : Nat) : Octet :=
  v.extractLsb' (24 - 8 * k) 8

/-- The octet view of a 32-bit value (R38). -/
def Octets.ofWord (v : Word) : Octets :=
  ⟨octetOf v 0, octetOf v 1, octetOf v 2, octetOf v 3⟩

/-- The 32-bit value of four octets, octet 0 in the high bits (R38). -/
def Octets.toWord (o : Octets) : Word :=
  o.o0 ++ o.o1 ++ o.o2 ++ o.o3

/-- The octet-wise AND of §3 and §4.1 (41_derivations.md R56): four lanes of eight bits. -/
def Octets.land (x y : Octets) : Octets :=
  ⟨x.o0 &&& y.o0, x.o1 &&& y.o1, x.o2 &&& y.o2, x.o3 &&& y.o3⟩

/-- `popcount32` (R12): the number of bits of v that are 1. PRESUMED by the spec itself ("from general knowledge", log 12). -/
def popcount32 (v : Word) : Nat :=
  (List.range 32).countP fun i => v.getLsbD i

/-- How many of the bits n−1, n−2, …, 0 of v, taken in that order, equal p before the first that does not. -/
def leadingRun (p : Bool) (v : Word) : Nat → Nat
  | 0 => 0
  | n + 1 => if v.getLsbD n = p then leadingRun p v n + 1 else 0

/-- `clz32` (R12): leading zero bits counted from bit 31, with clz32(0) = 32 (log 12). -/
def clz32 (v : Word) : Nat :=
  leadingRun false v 32

/-- The number of leading 1-bits counted from bit 31 (40_prefix_engine.md R52). -/
def leadingOnes32 (v : Word) : Nat :=
  leadingRun true v 32

end Sys2Proof
end

