-- ==== Sys2Proof/WellFormed.lean ====
section
/-! DEFINITION. What is well formed: every instruction (30_encoding.md R43), a request of exactly eight octets (R44), and a mask
that keeps the contiguity invariant of the data model (00_scope.md R13, 40_prefix_engine.md R51). -/

namespace Sys2Proof

/-- Every one of the 2^64 requests is legal (R43): there is no reserved, illegal or hint encoding. -/
def Instr.wf : Instr → Bool
  | .cidr _ _ => true

/-- A request written as octets, A.o0 first, carries all 64 operand bits and no more (20_memory.md R29, R39, R44). -/
def requestWf (os : List Octet) : Bool :=
  os.length == 8

/-- The contiguity invariant (R13, R51): scanning from bit 31 down, a 1 never follows a 0. -/
def maskWf (m : Word) : Bool :=
  (List.range 31).all fun i => !m.getLsbD i || m.getLsbD (i + 1)

end Sys2Proof
end

