-- ==== Sys2Proof/Decode.lean ====
section
/-! DEFINITION. The decoder and, after it, the encoder (30_encoding.md R38, R39, R42 to R44). There is one request format and no
opcode field: the match is 0 and the mask is 0, so every 64-bit word is CIDR. The octet list is the form a text or a platform
hands over (A.o0 first); a list that is not exactly one whole request is rejected by name, since an operand is never
transferred in part (20_memory.md R29). -/

namespace Sys2Proof

/-- Why a list of octets is no request (R29, R44). Raised by the decoder only, never by the block (60_exceptions.md R70). -/
inductive DecodeError where
  /-- Fewer than the 64 operand bits of a request. -/
  | shortRequest
  /-- More than the 64 operand bits of a request. -/
  | longRequest
  deriving DecidableEq, Repr

/-- Decodes the octets of a request, total on any list (R38, R39). -/
def decodeOctets : List Octet → Except DecodeError Instr
  | [a0, a1, a2, a3, b0, b1, b2, b3] =>
    .ok (.cidr (Octets.toWord ⟨a0, a1, a2, a3⟩) (Octets.toWord ⟨b0, b1, b2, b3⟩))
  | os => if os.length < 8 then .error .shortRequest else .error .longRequest

/-- Decodes a request word: A in REQ[63:32], B in REQ[31:0] (R39). Total, since every word is CIDR (R42, R43). -/
def decodeReq (w : Req) : Instr :=
  .cidr (w.extractLsb' 32 32) (w.extractLsb' 0 32)

/-- The eight octets of a request word in network byte order: A.o0 is REQ[63:56], B.o3 is REQ[7:0] (R39). -/
def octetsOfReq (w : Req) : List Octet :=
  (List.range 8).map fun k => w.extractLsb' (56 - 8 * k) 8

/-- The request word of an instruction of `nbits` bits whose value is `w`, numbered as the opcode table numbers them. There is one
request length, 64 bits, and no shorter, longer or padded form (R44): bits of any other number are no request. -/
def reqOfTableWord (nbits w : Nat) : Option Req :=
  if nbits = 64 ∧ w < 2 ^ 64 then some (BitVec.ofNat 64 w) else none

/-- What the decoder reads from an instruction of `nbits` bits whose value is `w`: none where these are no request (R44). -/
def decodeTableWord (nbits w : Nat) : Option Instr :=
  match reqOfTableWord nbits w with
  | none => none
  | some r =>
    match decodeOctets (octetsOfReq r) with
    | .ok i => some i
    | .error _ => none

/-- The request word of an instruction: REQ = A:B (R39). -/
def encodeReq : Instr → Req
  | .cidr a b => a ++ b

/-- The eight octets of an instruction in network byte order (R38, R39). -/
def encodeOctets : Instr → List Octet
  | .cidr a b =>
    [octetOf a 0, octetOf a 1, octetOf a 2, octetOf a 3, octetOf b 0, octetOf b 1, octetOf b 2, octetOf b 3]

end Sys2Proof
end

