-- ==== Sys2Proof/Machine/Derivations.lean ====
section
/-! DEFINITION. The contracts deriveNetwork and deriveAddressCount (41_derivations.md). Both see only the MASK and PLEN of the same
request (R63). -/

namespace Sys2Proof.Machine

/-- `NET <- A & MASK` (R56). -/
def deriveNetwork (address mask : Word) : Word :=
  address &&& mask

/-- `2^(32 − PLEN)`, exact, with no exclusion of the network and broadcast addresses (R58, R60, R62). -/
def deriveAddressCount (plen : Nat) : Nat :=
  2 ^ (32 - plen)

end Sys2Proof.Machine
end

