-- ==== Sys2Proof/Config.lean ====
section
/-! DEFINITION. What the spec leaves open (00_scope.md R10, 93_implementation_defined.md section 1), as free values: constants
without a body, so that a claim holds whatever they are. LATENCY has no constant: the model represents no time (R88), and any
number of events may stand between the acceptance and the service of a request (Machine/State.lean, `events`).
PLATFORM_BINDING lies outside the block (R32). -/

namespace Sys2Proof

/-- RESET_INFLIGHT (R83, D12): the fate of one request in flight when reset is asserted, true for completed and false for
dropped. Applied to the state's draw counter, so that every draw is a fresh free value (log 4, safe). -/
opaque Config.resetInflight : Nat → Bool

/-- ARBITRATION (R34, D7): which of the requesters with a request in flight is served next, where `State.events` does not
name one. Applied to the state's draw counter (log 3, safe). -/
opaque Config.arbitration : Nat → Nat

end Sys2Proof
end

