-- ==== Sys2Proof/Machine/State.lean ====
section
/-! DEFINITION. The state. The block itself holds none (10_state.md R14 to R21): no register, program counter, flag, control
register, memory or hidden state exists, so none stands here. What the spec's transactions need does: the request port, the
requests in flight, the response port (R22, R23, R29, R83). Beside them stand the model's own record of what was delivered
and of what happens next. -/

namespace Sys2Proof.Machine

/-- A response: its four fields, delivered as one indivisible transaction of 136 bits (20_memory.md R29, 30_encoding.md R40). -/
structure Response where
  mask : Word
  plen : PlenField
  net : Word
  count : CountField
  deriving DecidableEq, Repr

/-- A request as a requester presents it on the request port (R22): both operands, whole (R87). -/
structure Presented where
  requester : RequesterId
  a : Word
  b : Word
  deriving DecidableEq, Repr

/-- A request in flight (R83): accepted, its 64 operand bits captured whole (R29), its response not yet delivered. -/
structure Captured where
  requester : RequesterId
  req : Req
  deriving DecidableEq, Repr

/-- A response delivered to the requester it answers. -/
structure Delivery where
  requester : RequesterId
  response : Response
  deriving DecidableEq, Repr

/-- What happens next, as the requesters, the platform and the block choose. The order of these entries is where LATENCY and
ARBITRATION stand as plain data, so that every order is some state (log 2). -/
inductive Event where
  /-- The request port is driven: with a request, or with none. A requester may do so at any time (R23, R87). -/
  | drive (v : Option Presented)
  /-- The block accepts the request that is presented (R29). -/
  | accept
  /-- The block serves the oldest request in flight of one requester (R34). -/
  | serve (q : RequesterId)
  /-- The platform asserts reset (R82, R83). -/
  | reset
  deriving DecidableEq, Repr

/-- Why the machine stops with a fault: never. The block raises no exception for any request (60_exceptions.md R70), takes no
interrupt (R73) and has no trap mechanism (R75), so the type has no constructor. -/
inductive Fault where
  deriving DecidableEq, Repr

/-- Why an instruction has no meaning. -/
inductive Refusal where
  /-- Raised by `exec` for an instruction that has no meaning yet (safe: the machine stops). No arm raises it. -/
  | notModelled (mnemonic : String)
  deriving DecidableEq, Repr

/-- The machine. INVENTORY.md lists each field beside the rule that names it. -/
structure State where
  /-- The request port: what a requester presents now, if anything (R22, R23). -/
  port : Option Presented
  /-- The requests in flight, in the order of their acceptance (R29, R83). -/
  inflight : List Captured
  /-- The response port: a value only as part of a response that this step delivered (R23). -/
  rsp : Option Response
  /-- The response log: every response delivered, oldest first (the model's own record, log 6). -/
  log : List Delivery
  /-- What happens next, the earliest first (the model's own, log 2). -/
  events : List Event
  /-- How many free values were drawn (the model's own, log 5). -/
  draws : Nat
  deriving DecidableEq, Repr

/-- The machine right after reset (10_state.md R24, 70_reset_and_hazards.md R82): nothing in flight, no response pending. The
spec gives no value to what a requester drives; nothing presented is the model's choice (log 7), as are an empty log (log 6),
no event (log 2) and the counter's 0 (log 5). -/
def State.reset : State where
  port := none
  inflight := []
  rsp := none
  log := []
  events := []
  draws := 0

end Sys2Proof.Machine
end

