-- ==== Sys2Proof/Machine/Ops.lean ====
section
/-! DEFINITION. The named operations over the ports and the requests in flight (20_memory.md sections 2 and 3). The block has no
register, no memory and no trap mechanism (R15, R20, R75), so there is no operation over any of these. -/

namespace Sys2Proof.Machine

/-- The response port carries no value outside a response (10_state.md R23). -/
def State.quiet (s : State) : State :=
  { s with rsp := none }

/-- `rsp.F <- v` for all four fields at once (R12, R29): the response stands on the response port. -/
def State.respond (s : State) (r : Response) : State :=
  { s with rsp := some r }

/-- The response on the port, if there is one, is delivered whole to requester `q` (R29). -/
def State.deliverTo (s : State) (q : RequesterId) : State :=
  match s.rsp with
  | some r => { s with log := s.log ++ [⟨q, r⟩] }
  | none => s

/-- The request port is driven with `v`; nothing else changes (R23, R29). -/
def State.drivePort (s : State) (v : Option Presented) : State :=
  { s with port := v }

/-- The request word of what is presented: REQ = A:B (30_encoding.md R39). -/
def Presented.capture (p : Presented) : Captured :=
  ⟨p.requester, p.a ++ p.b⟩

/-- The block accepts what is presented: both operands are captured whole, and the transaction leaves the port (R29). With
nothing presented there is nothing to accept. DESIGN CHOICE: one presentation is accepted once (log 13). -/
def State.acceptRequest (s : State) : State :=
  match s.port with
  | some p => { s with inflight := s.inflight ++ [p.capture], port := none }
  | none => s

/-- The events that are still to come. -/
def State.withEvents (s : State) (as : List Event) : State :=
  { s with events := as }

/-- The requests that are still in flight. -/
def State.withInflight (s : State) (l : List Captured) : State :=
  { s with inflight := l }

/-- One free value was drawn. -/
def State.drew (s : State) : State :=
  { s with draws := s.draws + 1 }

/-- The oldest request in flight of requester `q`, and the others in their order: responses to one requester come back in the
order it issued the requests (R34). -/
def takeOldest (q : RequesterId) : List Captured → Option (Captured × List Captured)
  | [] => none
  | c :: cs =>
    if c.requester = q then some (c, cs)
    else (takeOldest q cs).map fun p => (p.1, c :: p.2)

/-- The request that ARBITRATION's value `n` names: any requester with a request in flight may be chosen (R34). -/
def takeArbitrated (n : Nat) (l : List Captured) : Option (Captured × List Captured) :=
  (l[n % l.length]?).bind fun c => takeOldest c.requester l

end Sys2Proof.Machine
end

