-- ==== Sys2Proof/Machine/PrefixEngine.lean ====
section
/-! DEFINITION. The contract computePrefix (40_prefix_engine.md): the comparator (R47), the mask generator (R49) and the
prefix-length counter (R52). The scan is the source's loop, transcribed; its intermediate values are visible to nobody (D9). -/

namespace Sys2Proof.Machine

/-- The comparator: E = ~(A ^ B), so that E[i] = 1 exactly where A[i] = B[i] (R47). -/
def equalBits (a b : Word) : Word :=
  ~~~(a ^^^ b)

/-- What the scan has built so far: MASK, and PLEN as an exact count (R49, R52). -/
structure PrefixScan where
  mask : Word
  plen : Nat
  deriving DecidableEq, Repr

/-- The mask with bit `i` set to 1 (R49: "set the corresponding bit in mask to 1"). -/
def setBit (m : Word) (i : Nat) : Word :=
  m ||| BitVec.twoPow 32 i

/-- The loop of R49 over the bits n−1, n−2, …, 0 of E: an equal bit is set and counted, the first mismatch ends the scan
(R48, R50). -/
def scanFrom (e : Word) : Nat → PrefixScan → PrefixScan
  | 0, acc => acc
  | n + 1, acc =>
    if e.getLsbD n then scanFrom e n ⟨setBit acc.mask n, acc.plen + 1⟩ else acc

/-- `computePrefix(A, B) -> (MASK, PLEN)` (R54): the scan starts at bit 31 with MASK and PLEN zero (R49). -/
def computePrefix (a b : Word) : PrefixScan :=
  scanFrom (equalBits a b) 32 ⟨0, 0⟩

end Sys2Proof.Machine
end

