-- ==== Sys2Proof/Machine/Cidr.lean ====
section
/-! DEFINITION. The one operation, CIDR (42_cidr_operation.md R65). -/

namespace Sys2Proof.Machine

/-- The response of CIDR to its own operands, and to nothing else (R14, R65). Each field is narrowed to its width here; no
narrowing loses a value (R12, R61). NET is derived from A, which cannot be told from deriving it from B (R57). -/
def cidrResponse (a b : Word) : Response :=
  let p := computePrefix a b
  { mask := p.mask
    plen := BitVec.ofNat 8 p.plen
    net := deriveNetwork a p.mask
    count := BitVec.ofNat 64 (deriveAddressCount p.plen) }

/-- `CIDR A, B` (R65): the response is formed; no flag, no state and no exception (R14, R17, R70). -/
def execCidr (a b : Word) (s : State) : Host.Outcome State Fault Refusal :=
  .next (s.respond (cidrResponse a b))

end Sys2Proof.Machine
end

