-- ==== Sys2Proof/Machine/Service.lean ====
section
/-! DEFINITION. Serving a captured request, and what reset does to one (20_memory.md R29 to R35, 70_reset_and_hazards.md R82 to
R84). A service is one step: no step shows a part of a response (R29, D9). -/

namespace Sys2Proof.Machine

/-- Serves a captured request: the operation is decoded from the captured word alone (R29, R42), carried out, and its response
delivered to the requester that issued it. -/
def completeRequest (c : Captured) (s : State) : Host.Outcome State Fault Refusal :=
  match exec (decodeReq c.req) s with
  | .next t => .next (t.deliverTo c.requester)
  | .fault r => .fault r
  | .refused r => .refused r

/-- `Event.serve q`: the oldest request in flight of `q` is served (R34). With none in flight, nothing happens (log 14). -/
def serveOldest (q : RequesterId) (s : State) : Host.Outcome State Fault Refusal :=
  match takeOldest q s.inflight with
  | some (c, rest) => completeRequest c (s.withInflight rest)
  | none => .next s

/-- No event is left: the request that ARBITRATION names is served, so that every request gets its response after finitely
many steps (R30, R88). With none in flight, the block idles. -/
def drain (s : State) : Host.Outcome State Fault Refusal :=
  match takeArbitrated (Config.arbitration s.draws) s.inflight with
  | some (c, rest) => completeRequest c (s.withInflight rest).drew
  | none => .next s

/-- What reset does to one request in flight: completed, or dropped with no response ever (R83). -/
def resolveAtReset (completed : Bool) (c : Captured) (s : State) : Host.Outcome State Fault Refusal :=
  if completed then completeRequest c s else .next s

/-- Reset is asserted, and `rest` is what comes after it. One request in flight is resolved by the draw RESET_INFLIGHT; once
none is left, reset is over (R82: "After reset no response is pending"; log 9). -/
def resetStep (rest : List Event) (s : State) : Host.Outcome State Fault Refusal :=
  match takeArbitrated (Config.arbitration s.draws) s.inflight with
  | some (c, others) => resolveAtReset (Config.resetInflight s.draws) c (s.withInflight others).drew
  | none => .next (s.withEvents rest)

/-- The next event is carried out. The response port carries no value but that of a response delivered now (R23). -/
def act (s : State) : Host.Outcome State Fault Refusal :=
  match s.events with
  | [] => drain s.quiet
  | .drive v :: rest => .next ((s.quiet.withEvents rest).drivePort v)
  | .accept :: rest => .next (s.quiet.withEvents rest).acceptRequest
  | .serve q :: rest => serveOldest q (s.quiet.withEvents rest)
  | .reset :: rest => resetStep rest s.quiet

/-- Requester 0 has the request `w` in flight as its oldest, and it is served next (log 10). -/
def State.placeRequest (s : State) (w : Req) : State :=
  (s.withInflight (⟨0, w⟩ :: s.inflight)).withEvents (.serve 0 :: s.events)

end Sys2Proof.Machine
end

