-- ==== Sys2Proof/Machine/Step.lean ====
section
/-! DEFINITION. One step of the machine, and where a step finds its next instruction. The block fetches nothing (10_state.md R16):
an instruction is a request in flight, decoded from its captured word. -/

namespace Sys2Proof.Machine

def step (s : State) : Host.Outcome State Fault Refusal :=
  act s

/-- The request whose bits are `w` stands where the next step takes its instruction: in flight, and served next (log 10). Bits of
another number than a request has are no request (30_encoding.md R44), so there is nothing to place. -/
def State.withFetchWord (s : State) (nbits w : Nat) : State :=
  match reqOfTableWord nbits w with
  | some r => s.placeRequest r
  | none => s

end Sys2Proof.Machine
end

