-- ==== Sys2Proof/Machine/Assembler.lean ====
section
/-! DEFINITION. Assembler syntax (30_encoding.md R45): how a request and a response are written, and how a written request is read.
It is notation only (92_eei_decisions.md D16): no step of the machine uses it. A text is a list of characters. The collaborators'
own output styles (R46) are out of scope (00_scope.md R8). -/

namespace Sys2Proof.Machine

abbrev Text := List Char

/-- A number in decimal, without leading zeros. -/
def decimalText (n : Nat) : Text :=
  Nat.toDigits 10 n

/-- A 4-octet value as a dotted quad, octet 0 first (R11, R45). -/
def dottedText (v : Word) : Text :=
  decimalText (octetOf v 0).toNat ++ '.' :: decimalText (octetOf v 1).toNat ++
    '.' :: decimalText (octetOf v 2).toNat ++ '.' :: decimalText (octetOf v 3).toNat

/-- A hexadecimal digit, in capitals as the spec writes them. -/
def hexDigit (n : Nat) : Char :=
  if n < 10 then Char.ofNat (48 + n) else Char.ofNat (55 + n)

/-- A 32-bit value as `0x` and eight hexadecimal digits (R45). -/
def hexText (v : Word) : Text :=
  '0' :: 'x' :: (List.range 8).map fun k => hexDigit (v.extractLsb' (28 - 4 * k) 4).toNat

/-- The mnemonic and the space after it. -/
def mnemonicText : Text := ['C', 'I', 'D', 'R', ' ']

/-- `CIDR <a0>.<a1>.<a2>.<a3>, <b0>.<b1>.<b2>.<b3>`, A first (R45). -/
def dottedRequestText : Instr → Text
  | .cidr a b => mnemonicText ++ dottedText a ++ ',' :: ' ' :: dottedText b

/-- `CIDR 0x<8 hex digits>, 0x<8 hex digits>`, A first (R45). -/
def hexRequestText : Instr → Text
  | .cidr a b => mnemonicText ++ hexText a ++ ',' :: ' ' :: hexText b

/-- `-> MASK <m0>.<m1>.<m2>.<m3> PLEN <p> NET <n0>.<n1>.<n2>.<n3> COUNT <c>`, PLEN and COUNT in decimal (R45). -/
def responseText (r : Response) : Text :=
  ['-', '>', ' ', 'M', 'A', 'S', 'K', ' '] ++ dottedText r.mask ++
    [' ', 'P', 'L', 'E', 'N', ' '] ++ decimalText r.plen.toNat ++
    [' ', 'N', 'E', 'T', ' '] ++ dottedText r.net ++
    [' ', 'C', 'O', 'U', 'N', 'T', ' '] ++ decimalText r.count.toNat

/-- What follows the text `lit`, if the input begins with it. -/
def expectText : Text → Text → Option Text
  | [], cs => some cs
  | _ :: _, [] => none
  | l :: ls, c :: cs => if l = c then expectText ls cs else none

/-- The value of a decimal digit. -/
def decimalDigit (c : Char) : Option Nat :=
  if 48 ≤ c.toNat ∧ c.toNat ≤ 57 then some (c.toNat - 48) else none

/-- The value of a hexadecimal digit, in capitals or small letters (log 15). -/
def hexDigitValue (c : Char) : Option Nat :=
  if 48 ≤ c.toNat ∧ c.toNat ≤ 57 then some (c.toNat - 48)
  else if 65 ≤ c.toNat ∧ c.toNat ≤ 70 then some (c.toNat - 55)
  else if 97 ≤ c.toNat ∧ c.toNat ≤ 102 then some (c.toNat - 87)
  else none

/-- The longest run of decimal digits at the front, read onto `acc`, and what follows it. -/
def readDigits (acc : Nat) : Text → Nat × Text
  | [] => (acc, [])
  | c :: cs =>
    match decimalDigit c with
    | some d => readDigits (10 * acc + d) cs
    | none => (acc, c :: cs)

/-- A decimal octet, 0 to 255 (R45): at least one digit; leading zeros do not matter (log 15). -/
def readOctet : Text → Option (Octet × Text)
  | [] => none
  | c :: cs =>
    match decimalDigit c with
    | none => none
    | some d =>
      let (n, rest) := readDigits d cs
      if n ≤ 255 then some (BitVec.ofNat 8 n, rest) else none

/-- A dotted quad: four octets with a dot between any two (R45). -/
def readDotted (cs : Text) : Option (Word × Text) := do
  let (o0, cs) ← readOctet cs
  let cs ← expectText ['.'] cs
  let (o1, cs) ← readOctet cs
  let cs ← expectText ['.'] cs
  let (o2, cs) ← readOctet cs
  let cs ← expectText ['.'] cs
  let (o3, cs) ← readOctet cs
  pure (Octets.toWord ⟨o0, o1, o2, o3⟩, cs)

/-- Exactly `k` hexadecimal digits, read onto `acc`, and what follows them. -/
def readHexDigits : Nat → Nat → Text → Option (Nat × Text)
  | 0, acc, cs => some (acc, cs)
  | _ + 1, _, [] => none
  | k + 1, acc, c :: cs =>
    match hexDigitValue c with
    | some d => readHexDigits k (16 * acc + d) cs
    | none => none

/-- `0x` and eight hexadecimal digits (R45). -/
def readHex (cs : Text) : Option (Word × Text) := do
  let cs ← expectText ['0', 'x'] cs
  let (n, cs) ← readHexDigits 8 0 cs
  pure (BitVec.ofNat 32 n, cs)

/-- Two operands in one form, with `, ` between them and nothing after them. -/
def readOperands (operand : Text → Option (Word × Text)) (cs : Text) : Option Instr := do
  let (a, cs) ← operand cs
  let cs ← expectText [',', ' '] cs
  let (b, cs) ← operand cs
  if cs.isEmpty then some (.cidr a b) else none

/-- Reads a request written in either of the two forms (R45). -/
def readRequest (cs : Text) : Option Instr := do
  let cs ← expectText mnemonicText cs
  readOperands readDotted cs <|> readOperands readHex cs

end Sys2Proof.Machine
end

