-- ==== Sys2Proof/Machine/Flags.lean ====
section
/-! DEFINITION. Flags: the block has none (10_state.md R17), so there is no flag to name and no flag computation to write. -/

namespace Sys2Proof.Machine

/-- The flags, condition codes, predicates, status and error bits of the block: none (R17). -/
inductive Flag where
  deriving DecidableEq, Repr

/-- The flags an instruction writes ("Flags written: none", 42_cidr_operation.md R65). -/
def flagsWritten : Instr → List Flag
  | .cidr _ _ => []

end Sys2Proof.Machine
end

