-- ==== Sys2Proof/Safety.lean ====
section
/-! DEFINITION. What a safe run is, in the terms the statements use. -/

namespace Sys2Proof.Machine

/-- The laws every response keeps (30_encoding.md R40, 40_prefix_engine.md R51 to R53, 41_derivations.md R58,
42_cidr_operation.md R67): PLEN is in range, MASK is the leading run of PLEN ones, COUNT is exact, NET has no bit below the
prefix. A partial or mixed response would break one of them. -/
def Response.wf (r : Response) : Bool :=
  decide (r.plen.toNat ≤ 32) && decide (r.mask.toNat = 2 ^ 32 - 2 ^ (32 - r.plen.toNat)) &&
    decide (r.count.toNat = 2 ^ (32 - r.plen.toNat)) && decide (r.net &&& ~~~r.mask = 0)

/-- The invariant of the machine: every response that was ever delivered keeps the laws, and the response port carries a value
only as part of the response that was delivered last (10_state.md R23, 20_memory.md R29). -/
def State.inv (s : State) : Bool :=
  s.log.all (fun d => d.response.wf) &&
    (match s.rsp with
      | none => true
      | some r => decide (s.log.getLast?.map (·.response) = some r))

/-- The response that a captured request has coming, whatever happens meanwhile (10_state.md R14, 42_cidr_operation.md R65). -/
def Captured.answer (c : Captured) : Response :=
  match decodeReq c.req with
  | .cidr a b => cidrResponse a b

/-- That response, delivered to the requester that issued the request. -/
def Captured.delivery (c : Captured) : Delivery :=
  ⟨c.requester, c.answer⟩

/-- The responses in a log that requester `q` received, in the order it received them (20_memory.md R34). -/
def responsesTo (q : RequesterId) (l : List Delivery) : List Response :=
  (l.filter (·.requester = q)).map (·.response)

/-- The request that the next step accepts, if it accepts one (R29). -/
def State.acceptsNow (s : State) : List Captured :=
  match s.events, s.port with
  | .accept :: _, some p => [p.capture]
  | _, _ => []

/-- The requests that a list of events has the block accept, where `port` is what the request port presents before it. Only
what is driven and accepted matters: no service and no reset changes which requests are accepted (R29, R87). -/
def acceptedBy : List Event → Option Presented → List Captured
  | [], _ => []
  | .drive v :: as, _ => acceptedBy as v
  | .accept :: as, some p => p.capture :: acceptedBy as none
  | .accept :: as, none => acceptedBy as none
  | .serve _ :: as, port => acceptedBy as port
  | .reset :: as, port => acceptedBy as port

/-- The responses to requester `q` among the answers to these requests. -/
def answersTo (q : RequesterId) (l : List Captured) : List Response :=
  (l.filter (·.requester = q)).map (·.answer)

/-- The responses that requester `q` still has coming, in the order it issued their requests (R30, R34). -/
def State.owedTo (q : RequesterId) (s : State) : List Response :=
  answersTo q s.inflight

/-- The next step carries reset on. -/
def State.resetting (s : State) : Bool :=
  match s.events with
  | .reset :: _ => true
  | _ => false

/-- Nothing is left to do: no event and no request in flight. -/
def State.quiescent (s : State) : Bool :=
  s.events.isEmpty && s.inflight.isEmpty

/-- A bound on the steps to quiescence: an event may put one more request in flight (R30, R88). -/
def State.workLeft (s : State) : Nat :=
  2 * s.events.length + s.inflight.length

/-- The machine after `k` steps. -/
def runSteps (k : Nat) (s : State) : Host.Outcome State Fault Refusal :=
  Sys2Proof.core.run k s

end Sys2Proof.Machine
end

