-- ==== Sys2Proof/Certificates/Slice0/Obligations.lean ====
section
/-! DEFINITION. The statements for the provers. Each docstring names the rules of the spec that it formalises. -/

open Sys2Proof Sys2Proof.Machine

/-! ### Encoding (30_encoding.md) -/

/-- R38: octet k of a 32-bit value occupies bits [31−8k : 24−8k], bit j of the octet being port bit 24−8k+j; the value is
o0·2^24 + o1·2^16 + o2·2^8 + o3; the octet view and the 32-bit view are inverse to each other. -/
def Obligations.OctetKOccupiesItsEightBits : Prop :=
  (∀ (v : Word) (k j : Nat), k < 4 → j < 8 → (octetOf v k).getLsbD j = v.getLsbD (24 - 8 * k + j)) ∧
  (∀ o : Octets, o.toWord.toNat =
    o.o0.toNat * 2 ^ 24 + o.o1.toNat * 2 ^ 16 + o.o2.toNat * 2 ^ 8 + o.o3.toNat) ∧
  (∀ o : Octets, Octets.ofWord o.toWord = o) ∧
  (∀ v : Word, (Octets.ofWord v).toWord = v)

/-- R39: a request word is A:B, octet k of A in REQ[63−8k : 56−8k] and octet k of B in REQ[31−8k : 24−8k]; all 64 bits are
operand bits, so no two words decode alike. -/
def Obligations.RequestWordIsTheTwoOperands : Prop :=
  (∀ w : Req, ∃ a b : Word, decodeReq w = .cidr a b ∧
    (∀ i, i < 32 → a.getLsbD i = w.getLsbD (32 + i) ∧ b.getLsbD i = w.getLsbD i) ∧
    (∀ k, k < 4 → octetOf a k = w.extractLsb' (56 - 8 * k) 8 ∧ octetOf b k = w.extractLsb' (24 - 8 * k) 8)) ∧
  (∀ w w' : Req, decodeReq w = decodeReq w' → w = w')

/-- R39, R42, R43: decoding and encoding agree both ways, on words, on octet lists and on the opcode table's numbers, for every
instruction and every one of the 2^64 words; every word decodes to a well-formed instruction. -/
def Obligations.DecodeAndEncodeAgree : Prop :=
  (∀ i : Instr, i.wf = true →
    decodeReq (encodeReq i) = i ∧ decodeOctets (encodeOctets i) = .ok i ∧
      decodeTableWord 64 (encodeReq i).toNat = some i) ∧
  (∀ w : Req, (decodeReq w).wf = true ∧ encodeReq (decodeReq w) = w ∧
    decodeOctets (octetsOfReq w) = .ok (decodeReq w) ∧ encodeOctets (decodeReq w) = octetsOfReq w)

/-- Rests on R44 (one request length, 64 bits) and R29 (no operand is transferred in part). That a request may be handed over as a
list of octets, and that a list of another length is rejected by the decoder under the names shortRequest and longRequest, is the
model's choice (log 17). -/
def Obligations.OnlyEightOctetsAreARequest : Prop :=
  ∀ os : List Octet,
    ((∃ i, decodeOctets os = .ok i) ↔ requestWf os = true) ∧
    (os.length < 8 → decodeOctets os = .error .shortRequest) ∧
    (8 < os.length → decodeOctets os = .error .longRequest)

/-- R44: a request has exactly 64 bits, with no shorter, longer or padded form. In the opcode table's numbering, `nbits` bits of
value `w` decode to an instruction exactly when they are 64 bits; anything else is neither decoded nor placed to be served. (That
nothing is placed is how the model reads bits that are no request, log 17.) -/
def Obligations.OnlySixtyFourBitsAreATableRequest : Prop :=
  ∀ (nbits w : Nat) (s : State),
    ((∃ i, decodeTableWord nbits w = some i) ↔ nbits = 64 ∧ w < 2 ^ 64) ∧
    (decodeTableWord nbits w = none → s.withFetchWord nbits w = s) ∧
    (∀ i, decodeTableWord nbits w = some i → (encodeReq i).toNat = w)

/-- Words written out from R39 and the REQ column of 95_test_vectors.md decode to the request beside them. -/
def Obligations.WrittenWordsDecode : Prop :=
  decodeReq 0xC0A8010AC0A80114 = .cidr 0xC0A8010A 0xC0A80114 ∧
  decodeReq 0x0102030481020304 = .cidr 0x01020304 0x81020304 ∧
  decodeOctets [192, 168, 1, 10, 192, 168, 1, 20] = .ok (.cidr 0xC0A8010A 0xC0A80114) ∧
  decodeTableWord 64 0xCB00714DCB00714C = some (.cidr 0xCB00714D 0xCB00714C)

/-- R45: reading a request back from either of its two written forms gives the request. -/
def Obligations.WrittenRequestsReadBack : Prop :=
  ∀ i : Instr, readRequest (dottedRequestText i) = some i ∧ readRequest (hexRequestText i) = some i

/-- R40: MASK's 1s form a leading run; PLEN is 0 to 32 and its bits [7:6] are 0; NET's bits [31−PLEN : 0] are 0 when PLEN < 32;
COUNT is 1 to 2^32, its bits [63:33] are 0 and its bit 32 is 1 exactly when PLEN = 0. -/
def Obligations.ResponseFieldsKeepTheirConstantBits : Prop :=
  ∀ a b : Word,
    let r := cidrResponse a b
    maskWf r.mask = true ∧
    r.plen.toNat ≤ 32 ∧ r.plen.getLsbD 6 = false ∧ r.plen.getLsbD 7 = false ∧
    (r.plen.toNat < 32 → ∀ i, i ≤ 31 - r.plen.toNat → r.net.getLsbD i = false) ∧
    1 ≤ r.count.toNat ∧ r.count.toNat ≤ 2 ^ 32 ∧
    (∀ i, 33 ≤ i → i < 64 → r.count.getLsbD i = false) ∧
    (r.count.getLsbD 32 = true ↔ r.plen.toNat = 0)

/-! ### Prefix engine (40_prefix_engine.md) -/

/-- R47: E[i] = 1 exactly when A[i] = B[i]; E of equal addresses is all ones, E of complementary ones is zero; E is symmetric;
the rule's example. -/
def Obligations.ComparatorMarksTheEqualBits : Prop :=
  (∀ (a b : Word) (i : Nat), i < 32 → ((equalBits a b).getLsbD i = true ↔ a.getLsbD i = b.getLsbD i)) ∧
  (∀ a : Word, equalBits a a = 0xFFFFFFFF) ∧
  (∀ a : Word, equalBits a (~~~a) = 0) ∧
  (∀ a b : Word, equalBits a b = equalBits b a) ∧
  equalBits 0xC0A8010A 0xC0A80114 = 0xFFFFFFE1

/-- R49: MASK[i] = E[31] & E[30] & … & E[i], and PLEN counts the bits that the loop set, from bit 31 down; the rule's corner
cases and example. -/
def Obligations.MaskBitIsTheAndOfTheBitsAbove : Prop :=
  (∀ (a b : Word) (i : Nat), i < 32 →
    ((computePrefix a b).mask.getLsbD i = true ↔ ∀ j, i ≤ j → j < 32 → (equalBits a b).getLsbD j = true) ∧
    ((computePrefix a b).mask.getLsbD i = true ↔ 32 - (computePrefix a b).plen ≤ i)) ∧
  (∀ a b : Word, (computePrefix a b).plen ≤ 32) ∧
  (∀ a : Word, (computePrefix a a).mask = 0xFFFFFFFF) ∧
  (∀ a b : Word, a.getLsbD 31 ≠ b.getLsbD 31 → (computePrefix a b).mask = 0) ∧
  (∀ a : Word, (computePrefix a (a ^^^ 1)).mask = 0xFFFFFFFE) ∧
  (computePrefix 0xC0A8010A 0xC0A80114).mask = 0xFFFFFFE0

/-- R50: from the first mismatch down no bit of MASK is 1, even where A and B agree again; MASK equals E exactly when E has no
1 below its first 0 from the top. -/
def Obligations.NoMaskBitFromAMismatchDown : Prop :=
  (∀ (a b : Word) (m i : Nat), m < 32 → a.getLsbD m ≠ b.getLsbD m → i ≤ m →
    (computePrefix a b).mask.getLsbD i = false) ∧
  (∀ a b : Word, (computePrefix a b).mask = equalBits a b ↔
    ∀ i j, j < i → i < 32 → (equalBits a b).getLsbD i = false → (equalBits a b).getLsbD j = false)

/-- R51: MASK is 1 from bit 31 down to bit 32 − PLEN and 0 below; scanning down, a 1 never follows a 0. -/
def Obligations.MaskIsALeadingRunOfOnes : Prop :=
  ∀ a b : Word,
    (∀ i, i < 32 → 32 - (computePrefix a b).plen ≤ i → (computePrefix a b).mask.getLsbD i = true) ∧
    (∀ i, i < 32 - (computePrefix a b).plen → (computePrefix a b).mask.getLsbD i = false) ∧
    maskWf (computePrefix a b).mask = true

/-- R52: PLEN's closed forms, its range, its field, every value of the range, and the rule's corner cases and example. -/
def Obligations.PrefixLengthHasItsClosedForms : Prop :=
  (∀ a b : Word,
    (computePrefix a b).plen = popcount32 (computePrefix a b).mask ∧
    (computePrefix a b).plen = leadingOnes32 (computePrefix a b).mask ∧
    (computePrefix a b).plen = clz32 (a ^^^ b) ∧
    (computePrefix a b).plen ≤ 32 ∧
    (cidrResponse a b).plen.toNat = (computePrefix a b).plen) ∧
  (∀ p, p < 32 → (computePrefix 0 (BitVec.twoPow 32 (31 - p))).plen = p) ∧
  (∀ a : Word, (computePrefix a a).plen = 32) ∧
  (∀ a b : Word, a.getLsbD 31 ≠ b.getLsbD 31 → (computePrefix a b).plen = 0) ∧
  (∀ a : Word, (computePrefix a (a ^^^ 1)).plen = 31) ∧
  (∀ (a b : Word) (k : Nat), k < 4 → (∀ j, 31 - 8 * k < j → j < 32 → a.getLsbD j = b.getLsbD j) →
    a.getLsbD (31 - 8 * k) ≠ b.getLsbD (31 - 8 * k) → (computePrefix a b).plen = 8 * k) ∧
  (computePrefix 0xC0A8010A 0xC0A80114).plen = 27

/-- R53: MASK = 2^32 − 2^(32−PLEN), with its two ends, and the shift form strictly between them. -/
def Obligations.MaskFollowsFromPrefixLength : Prop :=
  ∀ a b : Word,
    (computePrefix a b).mask.toNat = 2 ^ 32 - 2 ^ (32 - (computePrefix a b).plen) ∧
    ((computePrefix a b).plen = 0 → (computePrefix a b).mask = 0) ∧
    ((computePrefix a b).plen = 32 → (computePrefix a b).mask = 0xFFFFFFFF) ∧
    (0 < (computePrefix a b).plen → (computePrefix a b).plen < 32 →
      (computePrefix a b).mask.toNat = (0xFFFFFFFF * 2 ^ (32 - (computePrefix a b).plen)) % 2 ^ 32)

/-- R55: the three properties that the source states for computePrefix. -/
def Obligations.ComputePrefixKeepsTheSourcesProperties : Prop :=
  (∀ a : Word, computePrefix a a = ⟨0xFFFFFFFF, 32⟩) ∧
  (∀ a b : Word, (octetOf a 0).getLsbD 7 ≠ (octetOf b 0).getLsbD 7 → computePrefix a b = ⟨0, 0⟩) ∧
  (∀ (a b : Word) (i j : Nat), j < i → i < 32 → (computePrefix a b).mask.getLsbD i = false →
    (computePrefix a b).mask.getLsbD j = false)

/-- R13, R52, R67 (e): PLEN is the LONGEST common prefix. A and B have the same p leading bits exactly for the p up to PLEN. -/
def Obligations.PrefixLengthIsTheLongest : Prop :=
  ∀ (a b : Word) (p : Nat), p ≤ 32 →
    (a.toNat / 2 ^ (32 - p) = b.toNat / 2 ^ (32 - p) ↔ p ≤ (computePrefix a b).plen)

/-! ### Derivations (41_derivations.md) -/

/-- R56: NET is A & MASK, octet-wise and as a word; its corner cases and example. -/
def Obligations.NetworkIsTheMaskedAddress : Prop :=
  (∀ address mask : Word, deriveNetwork address mask = address &&& mask ∧
    Octets.ofWord (deriveNetwork address mask) = (Octets.ofWord address).land (Octets.ofWord mask)) ∧
  (∀ a b : Word, (cidrResponse a b).net = a &&& (computePrefix a b).mask) ∧
  (∀ a b : Word, (computePrefix a b).plen = 32 → (cidrResponse a b).net = a) ∧
  (∀ a b : Word, (computePrefix a b).plen = 0 → (cidrResponse a b).net = 0) ∧
  (∀ (a b : Word) (i : Nat), i < 32 - (computePrefix a b).plen → (cidrResponse a b).net.getLsbD i = false) ∧
  deriveNetwork 0xC0A8010A 0xFFFFFFE0 = 0xC0A80100

/-- R57: NET is the same whether it is derived from A or from B. -/
def Obligations.NetworkIsTheSameFromEitherAddress : Prop :=
  ∀ a b : Word,
    a &&& (computePrefix a b).mask = b &&& (computePrefix a b).mask ∧
    (cidrResponse a b).net = deriveNetwork a (cidrResponse a b).mask ∧
    (cidrResponse a b).net = deriveNetwork b (cidrResponse a b).mask

/-- R58, R60, R62, R64: COUNT is 2^(32 − PLEN) exactly, for every PLEN from 0 to 32, each of which occurs; it never wraps, and no
address is excluded; the corner cases and the example. -/
def Obligations.CountIsTheExactPowerOfTwo : Prop :=
  (∀ a b : Word,
    (cidrResponse a b).count.toNat = 2 ^ (32 - (cidrResponse a b).plen.toNat) ∧
    1 ≤ (cidrResponse a b).count.toNat ∧ (cidrResponse a b).count.toNat ≤ 2 ^ 32 ∧
    ((cidrResponse a b).plen = 0 → (cidrResponse a b).count = 0x100000000) ∧
    ((cidrResponse a b).plen = 27 → (cidrResponse a b).count = 32) ∧
    ((cidrResponse a b).plen = 31 → (cidrResponse a b).count = 2) ∧
    ((cidrResponse a b).plen = 32 → (cidrResponse a b).count = 1)) ∧
  (∀ p, p ≤ 32 → ∃ a b : Word, (cidrResponse a b).plen.toNat = p ∧ (cidrResponse a b).count.toNat = 2 ^ (32 - p))

/-- R59: COUNT = ~MASK + 1 with the addition in a wide enough domain. The two forms of the count agree on a mask exactly when it
is contiguous, and only contiguous masks reach the derivation. -/
def Obligations.CountIsTheNegatedMaskPlusOne : Prop :=
  (∀ a b : Word, (cidrResponse a b).count.toNat = (~~~(cidrResponse a b).mask).toNat + 1 ∧
    (~~~(cidrResponse a b).mask).toNat = 2 ^ (32 - (cidrResponse a b).plen.toNat) - 1 ∧
    maskWf (cidrResponse a b).mask = true) ∧
  (∀ m : Word, 2 ^ (32 - popcount32 m) = (~~~m).toNat + 1 ↔ maskWf m = true)

/-- R61: the bits of the COUNT field: [63:33] are 0, bit 32 is 1 only for PLEN = 0, [31:0] hold 2^(32−PLEN) when PLEN ≥ 1 and 0
when PLEN = 0; holding COUNT in 64 bits loses nothing. -/
def Obligations.CountFieldLosesNothing : Prop :=
  ∀ a b : Word,
    (cidrResponse a b).count.toNat = deriveAddressCount (computePrefix a b).plen ∧
    (cidrResponse a b).count.toNat < 2 ^ 33 ∧
    (cidrResponse a b).count.extractLsb' 33 31 = 0 ∧
    ((cidrResponse a b).count.getLsbD 32 = true ↔ (cidrResponse a b).plen = 0) ∧
    (1 ≤ (cidrResponse a b).plen.toNat →
      ((cidrResponse a b).count.extractLsb' 0 32).toNat = 2 ^ (32 - (cidrResponse a b).plen.toNat)) ∧
    ((cidrResponse a b).plen = 0 → (cidrResponse a b).count.extractLsb' 0 32 = 0)

/-! ### The CIDR operation (42_cidr_operation.md) -/

/-- R65: the request word A:B is CIDR A, B. For all operands and every state, CIDR answers a next state: the same state with a response on the response port whose
PLEN is the length p of the common prefix, whose MASK is its p leading ones, whose NET is A & MASK and whose COUNT is 2^(32−p); it
writes no flag and no other state; the rule's corner cases and example. -/
def Obligations.CidrAnswersItsResponse : Prop :=
  (∀ a b : Word, decodeReq (a ++ b) = .cidr a b) ∧
  (∀ (a b : Word) (s : State), ∃ r : Response,
    exec (.cidr a b) s = .next { s with rsp := some r } ∧
    r.plen.toNat ≤ 32 ∧
    (∀ j, 32 - r.plen.toNat ≤ j → j < 32 → a.getLsbD j = b.getLsbD j) ∧
    (r.plen.toNat < 32 → a.getLsbD (31 - r.plen.toNat) ≠ b.getLsbD (31 - r.plen.toNat)) ∧
    (∀ i, i < 32 → (r.mask.getLsbD i = true ↔ 32 - r.plen.toNat ≤ i)) ∧
    r.net = a &&& r.mask ∧
    r.count.toNat = 2 ^ (32 - r.plen.toNat)) ∧
  (∀ a b : Word, flagsWritten (.cidr a b) = []) ∧
  (∀ (a : Word) (s : State), exec (.cidr a a) s = .next { s with rsp := some ⟨0xFFFFFFFF, 32, a, 1⟩ }) ∧
  (∀ (a b : Word) (s : State), a.getLsbD 31 ≠ b.getLsbD 31 →
    exec (.cidr a b) s = .next { s with rsp := some ⟨0, 0, 0, 4294967296⟩ }) ∧
  (∀ (a : Word) (s : State), exec (.cidr a (a ^^^ 1)) s =
    .next { s with rsp := some ⟨0xFFFFFFFE, 31, a &&& 0xFFFFFFFE, 2⟩ }) ∧
  (∀ (a b : Word) (k : Nat), k < 4 → (∀ j, 31 - 8 * k < j → j < 32 → a.getLsbD j = b.getLsbD j) →
    a.getLsbD (31 - 8 * k) ≠ b.getLsbD (31 - 8 * k) → (cidrResponse a b).plen.toNat = 8 * k) ∧
  (∀ (a b : Word) (m i : Nat), m < 32 → a.getLsbD m ≠ b.getLsbD m → i ≤ m →
    (cidrResponse a b).mask.getLsbD i = false) ∧
  (∀ (a b : Word) (s : State), exec (.cidr a b) s = exec (.cidr b a) s) ∧
  (∀ s : State, exec (.cidr 0xC0A8010A 0xC0A80114) s =
    .next { s with rsp := some ⟨0xFFFFFFE0, 27, 0xC0A80100, 32⟩ })

/-- R65 "State written: none": the frame of CIDR. When it answers a next state, only the response port differs. -/
def Obligations.CidrChangesOnlyTheResponsePort : Prop :=
  ∀ (a b : Word) (s t : State), exec (.cidr a b) s = .next t →
    t.port = s.port ∧ t.inflight = s.inflight ∧ t.log = s.log ∧ t.events = s.events ∧ t.draws = s.draws ∧
    t.rsp.isSome = true

/-- R66: swapping the operands changes no field of the response. -/
def Obligations.CidrIsSymmetric : Prop :=
  ∀ (a b : Word) (s : State),
    (cidrResponse a b).mask = (cidrResponse b a).mask ∧ (cidrResponse a b).plen = (cidrResponse b a).plen ∧
    (cidrResponse a b).net = (cidrResponse b a).net ∧ (cidrResponse a b).count = (cidrResponse b a).count ∧
    exec (.cidr a b) s = exec (.cidr b a) s

/-- R67 (a) to (f): the relations between the fields of every CIDR response. -/
def Obligations.ResponseFieldsAreRelated : Prop :=
  ∀ a b : Word,
    let r := cidrResponse a b
    r.mask.toNat = 2 ^ 32 - r.count.toNat ∧
    r.count.toNat * 2 ^ r.plen.toNat = 2 ^ 32 ∧
    r.net &&& ~~~r.mask = 0 ∧
    (r.net.toNat ≤ a.toNat ∧ a.toNat ≤ r.net.toNat + r.count.toNat - 1) ∧
    (r.net.toNat ≤ b.toNat ∧ b.toNat ≤ r.net.toNat + r.count.toNat - 1) ∧
    (r.plen.toNat < 32 → a.getLsbD (31 - r.plen.toNat) ≠ b.getLsbD (31 - r.plen.toNat) ∧
      a.toNat / 2 ^ (31 - r.plen.toNat) ≠ b.toNat / 2 ^ (31 - r.plen.toNat)) ∧
    (∀ i, i < 32 → (r.mask.getLsbD i = true ↔ 32 - r.plen.toNat ≤ i))

/-- R14, R21, R31: equal operands get equal responses, whatever the state and whatever came between. -/
def Obligations.EqualRequestsGetEqualResponses : Prop :=
  ∀ (i : Instr) (s s' t t' : State), exec i s = .next t → exec i s' = .next t' →
    t.rsp = t'.rsp ∧ t.rsp.isSome = true

/-! ### Transactions, ordering and completion (20_memory.md) -/

/-- A service step runs the decoded instruction: when the oldest request in flight of the requester to be served is the encoding of
a well-formed instruction i, the step is exec of i at the state that has that request and the event taken away and no value on the
response port, followed by the delivery of the response to that requester. -/
def Obligations.StepRunsTheDecodedRequest : Prop :=
  ∀ (s : State) (q : RequesterId) (rest : List Event) (c : Captured) (others : List Captured) (i : Instr),
    s.events = .serve q :: rest → takeOldest q s.inflight = some (c, others) → i.wf = true → c.req = encodeReq i →
    decodeReq c.req = i ∧
    ∀ u, exec i { s with rsp := none, events := rest, inflight := others } = .next u →
      step s = .next (u.deliverTo q)

/-- Whatever the state, the word that withFetchWord places is the request that the very next step serves, and nothing else of the
state is used up. -/
def Obligations.PlacedWordIsServedNext : Prop :=
  ∀ (s : State) (w : Req), ∃ r : Response,
    exec (decodeReq w) s = .next { s with rsp := some r } ∧
    step (s.withFetchWord 64 w.toNat) = .next { s with rsp := some r, log := s.log ++ [⟨0, r⟩] }

/-- R29: acceptance captures both operands whole, as one 64-bit request word, behind the requests already in flight. That the
presented transaction then leaves the port, and that an acceptance with nothing presented does nothing, is the model's choice
(log 13). -/
def Obligations.AcceptanceCapturesBothOperands : Prop :=
  (∀ (s : State) (rest : List Event) (p : Presented), s.events = .accept :: rest → s.port = some p →
    ∃ c : Captured, c.requester = p.requester ∧ decodeReq c.req = .cidr p.a p.b ∧
      step s = .next { s with port := none, inflight := s.inflight ++ [c], rsp := none, events := rest }) ∧
  (∀ (s : State) (rest : List Event), s.events = .accept :: rest → s.port = none →
    step s = .next { s with rsp := none, events := rest })

/-- Driving the request port changes the port and nothing that is in flight or was delivered (R23, R29, R87); serving a requester
that has nothing in flight changes nothing (log 14); a machine with nothing to do stays as it is (R16). -/
def Obligations.OtherStepsChangeNoTransaction : Prop :=
  (∀ (s : State) (v : Option Presented) (rest : List Event), s.events = .drive v :: rest →
    step s = .next { s with port := v, rsp := none, events := rest }) ∧
  (∀ (s : State) (q : RequesterId) (rest : List Event), s.events = .serve q :: rest →
    (∀ c ∈ s.inflight, c.requester ≠ q) → step s = .next { s with rsp := none, events := rest }) ∧
  (∀ s : State, s.quiescent = true → step s = .next { s with rsp := none })

/-- R29, R87: what the request port carries after acceptance has no effect. Two states that differ in the request port only deliver
the same responses for as long as no further request is accepted. -/
def Obligations.PortChangesAfterAcceptanceHaveNoEffect : Prop :=
  ∀ (k : Nat) (s t t' : State) (v : Option Presented), (∀ x ∈ s.events, x ≠ .accept) →
    runSteps k s = .next t → runSteps k { s with port := v } = .next t' →
    t.log = t'.log ∧ t.rsp = t'.rsp ∧ t.inflight = t'.inflight

/-- R23, R29: the response port carries a value exactly when this step delivered a response, and that response is the whole answer
to one request that was in flight, delivered to the requester that issued it. -/
def Obligations.ResponsePortCarriesOnlyDeliveries : Prop :=
  ∀ s t : State, step s = .next t →
    (t.rsp = none ∧ t.log = s.log) ∨
    ∃ c ∈ s.inflight, ∃ a b : Word, decodeReq c.req = .cidr a b ∧
      t.rsp = some (cidrResponse a b) ∧ t.log = s.log ++ [⟨c.requester, cidrResponse a b⟩]

/-- R30, R34: a step that is no reset loses, adds and reorders no response to any requester: what it has received, followed by what
it has coming, grows only by the answer to a request of its own that the step accepts. -/
def Obligations.StepConservesResponses : Prop :=
  ∀ (s t : State) (q : RequesterId), step s = .next t → s.resetting = false →
    responsesTo q t.log ++ t.owedTo q = responsesTo q s.log ++ s.owedTo q ++ answersTo q s.acceptsNow

/-- R30, R34, R35, R79, R88: without reset, every state comes to rest after finitely many steps, and every requester
has then received, exactly once each and in its own issue order, the answers to what it had in flight and to what was accepted
from it. No part of this depends on ARBITRATION or on where the services stand among the events. The bound, workLeft,
counts the model's steps, one for each event (log 2); the spec says only that the steps are finitely many. -/
def Obligations.EveryRequestIsAnsweredOnceInOrder : Prop :=
  ∀ s : State, (∀ x ∈ s.events, x ≠ .reset) →
    ∃ t, runSteps s.workLeft s = .next t ∧ t.quiescent = true ∧
      ∀ q, responsesTo q t.log =
        responsesTo q s.log ++ s.owedTo q ++ answersTo q (acceptedBy s.events s.port)

/-- R30, R31, R83, R84: with any resets among the events, every state still comes to rest, and every requester has then
received a subsequence of those same answers after what it had received before: a response may be missing, none is wrong, partial,
repeated or out of order. The bound, workLeft, counts the model's steps (log 2), a reset taking one for each request in flight
(log 9). -/
def Obligations.ResetOnlyDropsResponses : Prop :=
  ∀ s : State, ∃ t, runSteps s.workLeft s = .next t ∧ t.quiescent = true ∧
    ∀ q, ∃ new, responsesTo q t.log = responsesTo q s.log ++ new ∧
      List.Sublist new (s.owedTo q ++ answersTo q (acceptedBy s.events s.port))

/-- R30, R88: every step of a machine that has something left to do leaves less of it. The measure counts the model's events and
steps (log 2). -/
def Obligations.EveryStepLeavesLessToDo : Prop :=
  ∀ s t : State, step s = .next t → 0 < s.workLeft → t.workLeft < s.workLeft

/-- R34: every order of service between requesters is admitted. For any sequence of requesters that names each as often as it has a
request in flight, the services in that order deliver exactly one response each, in that order, and to each requester its own
answers in its own order. -/
def Obligations.EveryOrderOfServiceIsAdmitted : Prop :=
  ∀ (s : State) (qs : List RequesterId), s.events = qs.map .serve → qs.Perm (s.inflight.map (·.requester)) →
    ∃ t new, runSteps qs.length s = .next t ∧ t.inflight = [] ∧ t.log = s.log ++ new ∧
      new.map (·.requester) = qs ∧ ∀ q, responsesTo q new = s.owedTo q

/-- R35: no interleaving of the transactions of several requesters changes any response. Take two lists of events that have the same
requests accepted from each requester in the same order, however the requesters' events and the services are interleaved: both bring
every requester the same responses in the same order. -/
def Obligations.InterleavingChangesNoResponse : Prop :=
  ∀ (s t t' : State) (as : List Event), (∀ x ∈ s.events, x ≠ .reset) → (∀ x ∈ as, x ≠ .reset) →
    (∀ q : RequesterId, (acceptedBy s.events s.port).filter (·.requester = q) =
      (acceptedBy as s.port).filter (·.requester = q)) →
    runSteps s.workLeft s = .next t →
    runSteps (State.workLeft { s with events := as }) { s with events := as } = .next t' →
    ∀ q, responsesTo q t.log = responsesTo q t'.log

/-! ### Exceptions (60_exceptions.md) -/

/-- R70: the block raises nothing, for any request and in any state: no instruction and no step stops, and there is no fault that
could be raised. -/
def Obligations.NothingIsEverRaised : Prop :=
  (∀ (i : Instr) (s : State), ∃ t, exec i s = .next t) ∧ (∀ s : State, ∃ t, step s = .next t) ∧ (∀ _f : Fault, False)

/-! ### Reset (70_reset_and_hazards.md) -/

/-- R24, R82: after reset nothing is in flight, no response is pending and none is observable. (What is presented, the log, the
events and the counter are the model's choices, logs 2, 5, 6 and 7, and not stated here.) -/
def Obligations.ResetLeavesNoResponsePending : Prop :=
  State.reset.inflight = [] ∧ State.reset.rsp = none

/-- R83: a request in flight at reset is dropped, with no response, or completed, with exactly the response of CIDR to its own
operands. Both outcomes are admitted, and which one happens is the draw RESET_INFLIGHT. The second clause says how the model carries
this out, which is its own choice: the draw is a free value applied to the counter of draws (logs 4 and 5), and a reset step takes
one request out of flight, some requester's oldest (log 9). -/
def Obligations.ResetDropsOrCompletesARequest : Prop :=
  (∀ (s : State) (c : Captured) (a b : Word), decodeReq c.req = .cidr a b →
    resolveAtReset false c s = .next s ∧
    resolveAtReset true c s =
      .next { s with rsp := some (cidrResponse a b), log := s.log ++ [⟨c.requester, cidrResponse a b⟩] }) ∧
  (∀ (s : State) (rest : List Event), s.events = .reset :: rest → s.inflight ≠ [] →
    ∃ c others, takeOldest c.requester s.inflight = some (c, others) ∧
      step s = resolveAtReset (Config.resetInflight s.draws) c
        { s with rsp := none, inflight := others, draws := s.draws + 1 })

/-- R82, R83, with the step count of log 9 (one request a step): reset comes to an end with nothing in flight and no response pending; the request port is untouched, and what was
delivered meanwhile to a requester are answers to its own requests in flight, in their order. -/
def Obligations.ResetEndsWithNothingInFlight : Prop :=
  ∀ (s : State) (rest : List Event), s.events = .reset :: rest →
    ∃ t new, runSteps (s.inflight.length + 1) s = .next t ∧
      t.inflight = [] ∧ t.rsp = none ∧ t.events = rest ∧ t.port = s.port ∧ t.log = s.log ++ new ∧
      ∀ q, List.Sublist (responsesTo q new) (s.owedTo q)

/-- R84, for a request that is presented, accepted and served right after the reset: it gets the response of CIDR to its own
operands, whatever came before the reset. The count of steps rests on log 9 (a reset takes one step for each request in flight, and
one more). Other schedules after a reset are covered by ResetEndsWithNothingInFlight together with
EveryRequestIsAnsweredOnceInOrder. -/
def Obligations.FirstRequestAfterResetIsServed : Prop :=
  ∀ (s : State) (q : RequesterId) (a b : Word),
    s.events = [.reset, .drive (some ⟨q, a, b⟩), .accept, .serve q] →
    ∃ t before, runSteps (s.inflight.length + 4) s = .next t ∧
      t.rsp = some (cidrResponse a b) ∧ t.log = before ++ [⟨q, cidrResponse a b⟩] ∧ t.inflight = []

/-! ### The invariant -/

/-- R29, R40, R51, R67 (headline): from every state that meets the invariant, each step leads to one that meets it: every response
ever delivered keeps the laws of a response, and the response port carries only what was delivered last. -/
def Obligations.StepKeepsTheInvariant : Prop :=
  ∀ s t : State, s.inv = true → step s = .next t → t.inv = true

/-- The invariant holds after reset. -/
def Obligations.ResetMeetsTheInvariant : Prop :=
  State.reset.inv = true
end

