-- ==== Sys2Proof/Laws/Decode.lean ====
section
/-! SUPPORT. What the table-word operations do, said once: a request has exactly 64 bits (30_encoding.md R44). -/

namespace Sys2Proof

/-- A 64-bit value is the request word with those bits. -/
theorem reqOfTableWord_toNat (r : Req) : reqOfTableWord 64 r.toNat = some r := by
  simp [reqOfTableWord, r.isLt]

/-- Everything that is a request word: 64 bits, and the word holds just these. -/
theorem reqOfTableWord_eq_some_iff {nbits w : Nat} {r : Req} :
    reqOfTableWord nbits w = some r ↔ nbits = 64 ∧ w < 2 ^ 64 ∧ r.toNat = w := by
  unfold reqOfTableWord
  split
  case isTrue h =>
    simp only [h, Option.some.injEq, true_and]
    constructor
    · rintro rfl
      simpa using h.2
    · rintro rfl
      simp
  case isFalse h => simp only [reduceCtorEq, false_iff]; omega

/-- What is no request word is placed nowhere. -/
theorem Machine.State.withFetchWord_of_none {s : Machine.State} {nbits w : Nat} (h : reqOfTableWord nbits w = none) :
    s.withFetchWord nbits w = s := by
  simp [Machine.State.withFetchWord, h]

/-- A request word is placed in flight, and served next. -/
theorem Machine.State.withFetchWord_of_some {s : Machine.State} {nbits w : Nat} {r : Req}
    (h : reqOfTableWord nbits w = some r) : s.withFetchWord nbits w = s.placeRequest r := by
  simp [Machine.State.withFetchWord, h]

end Sys2Proof
end

