-- ==== Sys2Proof/Laws/State.lean ====
section
/-! SUPPORT. One lemma per field of State and update of it, so that no later proof unfolds a record update. -/

namespace Sys2Proof.Machine

variable (s : State)

@[simp] theorem State.port_quiet : (s.quiet).port = s.port := rfl
@[simp] theorem State.inflight_quiet : (s.quiet).inflight = s.inflight := rfl
@[simp] theorem State.rsp_quiet : (s.quiet).rsp = none := rfl
@[simp] theorem State.log_quiet : (s.quiet).log = s.log := rfl
@[simp] theorem State.events_quiet : (s.quiet).events = s.events := rfl
@[simp] theorem State.draws_quiet : (s.quiet).draws = s.draws := rfl

@[simp] theorem State.port_respond (r : Response) : (s.respond r).port = s.port := rfl
@[simp] theorem State.inflight_respond (r : Response) : (s.respond r).inflight = s.inflight := rfl
@[simp] theorem State.rsp_respond (r : Response) : (s.respond r).rsp = some r := rfl
@[simp] theorem State.log_respond (r : Response) : (s.respond r).log = s.log := rfl
@[simp] theorem State.events_respond (r : Response) : (s.respond r).events = s.events := rfl
@[simp] theorem State.draws_respond (r : Response) : (s.respond r).draws = s.draws := rfl

@[simp] theorem State.port_drivePort (v : Option Presented) : (s.drivePort v).port = v := rfl
@[simp] theorem State.inflight_drivePort (v : Option Presented) : (s.drivePort v).inflight = s.inflight := rfl
@[simp] theorem State.rsp_drivePort (v : Option Presented) : (s.drivePort v).rsp = s.rsp := rfl
@[simp] theorem State.log_drivePort (v : Option Presented) : (s.drivePort v).log = s.log := rfl
@[simp] theorem State.events_drivePort (v : Option Presented) : (s.drivePort v).events = s.events := rfl
@[simp] theorem State.draws_drivePort (v : Option Presented) : (s.drivePort v).draws = s.draws := rfl

@[simp] theorem State.port_withEvents (as : List Event) : (s.withEvents as).port = s.port := rfl
@[simp] theorem State.inflight_withEvents (as : List Event) : (s.withEvents as).inflight = s.inflight := rfl
@[simp] theorem State.rsp_withEvents (as : List Event) : (s.withEvents as).rsp = s.rsp := rfl
@[simp] theorem State.log_withEvents (as : List Event) : (s.withEvents as).log = s.log := rfl
@[simp] theorem State.events_withEvents (as : List Event) : (s.withEvents as).events = as := rfl
@[simp] theorem State.draws_withEvents (as : List Event) : (s.withEvents as).draws = s.draws := rfl

@[simp] theorem State.port_withInflight (l : List Captured) : (s.withInflight l).port = s.port := rfl
@[simp] theorem State.inflight_withInflight (l : List Captured) : (s.withInflight l).inflight = l := rfl
@[simp] theorem State.rsp_withInflight (l : List Captured) : (s.withInflight l).rsp = s.rsp := rfl
@[simp] theorem State.log_withInflight (l : List Captured) : (s.withInflight l).log = s.log := rfl
@[simp] theorem State.events_withInflight (l : List Captured) : (s.withInflight l).events = s.events := rfl
@[simp] theorem State.draws_withInflight (l : List Captured) : (s.withInflight l).draws = s.draws := rfl

@[simp] theorem State.port_drew : (s.drew).port = s.port := rfl
@[simp] theorem State.inflight_drew : (s.drew).inflight = s.inflight := rfl
@[simp] theorem State.rsp_drew : (s.drew).rsp = s.rsp := rfl
@[simp] theorem State.log_drew : (s.drew).log = s.log := rfl
@[simp] theorem State.events_drew : (s.drew).events = s.events := rfl
@[simp] theorem State.draws_drew : (s.drew).draws = s.draws + 1 := rfl

/-- Delivering a response that has just been formed: it stays on the port and joins the log (20_memory.md R29). -/
theorem State.deliverTo_respond (r : Response) (q : RequesterId) :
    (s.respond r).deliverTo q = { s with rsp := some r, log := s.log ++ [⟨q, r⟩] } := rfl

/-- Accepting what is presented (R29). -/
theorem State.acceptRequest_of_some {s : State} {p : Presented} (h : s.port = some p) :
    s.acceptRequest = { s with inflight := s.inflight ++ [p.capture], port := none } := by
  simp [State.acceptRequest, h]

/-- Accepting when nothing is presented. -/
theorem State.acceptRequest_of_none {s : State} (h : s.port = none) : s.acceptRequest = s := by
  simp [State.acceptRequest, h]

end Sys2Proof.Machine
end

