-- ==== Sys2Proof/Laws/Ops.lean ====
section
/-! SUPPORT. One spec lemma for each operation over the requests in flight and for each transaction (20_memory.md R29 to R35). -/

namespace Sys2Proof.Machine

/-- What `takeOldest` finds: the first request of `q`, with everything before and after it left in order (R34). -/
theorem takeOldest_spec {q : RequesterId} {l others : List Captured} {c : Captured}
    (h : takeOldest q l = some (c, others)) :
    c.requester = q ∧ ∃ pre post, l = pre ++ c :: post ∧ others = pre ++ post ∧ ∀ x ∈ pre, x.requester ≠ q := by
  induction l generalizing others with
  | nil => simp [takeOldest] at h
  | cons d ds ih =>
    unfold takeOldest at h
    split at h
    case isTrue hd =>
      obtain ⟨rfl, rfl⟩ : d = c ∧ ds = others := by simpa using h
      exact ⟨hd, [], ds, rfl, rfl, by simp⟩
    case isFalse hd =>
      obtain ⟨⟨c', rest'⟩, hfound, heq⟩ := Option.map_eq_some_iff.mp h
      obtain ⟨rfl, rfl⟩ : c' = c ∧ d :: rest' = others := by simpa using heq
      obtain ⟨hq, pre, post, rfl, rfl, hpre⟩ := ih hfound
      exact ⟨hq, d :: pre, post, rfl, rfl, by simpa [hd] using hpre⟩

/-- `takeOldest` finds nothing exactly when `q` has no request in flight. -/
theorem takeOldest_eq_none_iff {q : RequesterId} {l : List Captured} :
    takeOldest q l = none ↔ ∀ x ∈ l, x.requester ≠ q := by
  induction l with
  | nil => simp [takeOldest]
  | cons d ds ih => by_cases hd : d.requester = q <;> simp [takeOldest, hd, ih]

/-- What ARBITRATION finds is the oldest request in flight of its requester (R34). -/
theorem takeArbitrated_spec {n : Nat} {l others : List Captured} {c : Captured}
    (h : takeArbitrated n l = some (c, others)) : takeOldest c.requester l = some (c, others) := by
  obtain ⟨d, -, hd⟩ := Option.bind_eq_some_iff.mp h
  rwa [(takeOldest_spec hd).1]

/-- ARBITRATION finds nothing exactly when nothing is in flight. -/
theorem takeArbitrated_eq_none_iff {n : Nat} {l : List Captured} : takeArbitrated n l = none ↔ l = [] := by
  constructor
  · intro h
    by_contra hl
    have hlt : n % l.length < l.length := Nat.mod_lt _ (List.length_pos_iff.mpr hl)
    have hnone : takeOldest (l[n % l.length]'hlt).requester l = none := by
      simpa [takeArbitrated, List.getElem?_eq_getElem hlt] using h
    exact takeOldest_eq_none_iff.mp hnone _ (List.getElem_mem hlt) rfl
  · rintro rfl
    simp [takeArbitrated]

/-- Taking the oldest request of a requester takes exactly one request out of flight. -/
theorem takeOldest_length {q : RequesterId} {l others : List Captured} {c : Captured}
    (h : takeOldest q l = some (c, others)) : l.length = others.length + 1 := by
  obtain ⟨-, pre, post, rfl, rfl, -⟩ := takeOldest_spec h
  simp [Nat.add_assoc]

/-- Taking the oldest request of a requester takes the first answer from those this requester has coming, and none from any
other's. -/
theorem takeOldest_answersTo {q q' : RequesterId} {l others : List Captured} {c : Captured}
    (h : takeOldest q l = some (c, others)) :
    answersTo q' l = (if c.requester = q' then [c.answer] else []) ++ answersTo q' others := by
  obtain ⟨hc, pre, post, rfl, rfl, hpre⟩ := takeOldest_spec h
  by_cases hq : c.requester = q'
  · have hnone : pre.filter (fun x => decide (x.requester = q')) = [] := by
      rw [List.filter_eq_nil_iff]
      intro x hx
      have := hpre x hx
      simp only [decide_eq_true_eq]
      rwa [← hq, hc]
    simp [answersTo, hq, hnone]
  · simp [answersTo, hq]

/-- Carrying out the operation of a captured request puts its answer on the response port, and does nothing else (R65). -/
theorem exec_decodeReq (c : Captured) (s : State) : exec (decodeReq c.req) s = .next (s.respond c.answer) := rfl

/-- Everything a service does: the answer stands on the response port and joins the log (R29, R31). -/
theorem completeRequest_eq (c : Captured) (s : State) :
    completeRequest c s = .next { s with rsp := some c.answer, log := s.log ++ [c.delivery] } := rfl

end Sys2Proof.Machine
end

