-- ==== Sys2Proof/Laws/PerInstr.lean ====
section
/-! SUPPORT. Facts about instructions as syntax, one lemma per constructor of Instr. -/

namespace Sys2Proof.Laws

/-- RequestForm: an instruction is written as exactly one whole request of eight octets (30_encoding.md R39, R44). -/
def RequestForm.Statement (i : Instr) : Prop :=
  i.wf = true → requestWf (encodeOctets i) = true

theorem RequestForm.cidr (a b : Word) : RequestForm.Statement (.cidr a b) := fun _ => rfl

end Sys2Proof.Laws
end

