-- ==== Sys2Proof/Laws/PrefixEngine.lean ====
section
/-! SUPPORT. What the scan of 40_prefix_engine.md R49 computes, said once for any start: MASK gains the leading run of 1s of E, and
PLEN its length. -/

namespace Sys2Proof.Machine

theorem leadingRun_le (p : Bool) (v : Word) (n : Nat) : leadingRun p v n ≤ n := by
  induction n with
  | zero => simp [leadingRun]
  | succ n ih => unfold leadingRun; split <;> omega

/-- Every bit of the run equals p. -/
theorem leadingRun_bit {p : Bool} {v : Word} {n i : Nat} (hlo : n - leadingRun p v n ≤ i) (hi : i < n) :
    v.getLsbD i = p := by
  induction n with
  | zero => omega
  | succ n ih =>
    unfold leadingRun at hlo
    split at hlo
    case isTrue hn =>
      by_cases hin : i = n
      · exact hin ▸ hn
      · exact ih (by omega) (by omega)
    case isFalse => omega

/-- The bit below the run does not equal p. -/
theorem leadingRun_stop {p : Bool} {v : Word} {n : Nat} (h : leadingRun p v n < n) :
    v.getLsbD (n - 1 - leadingRun p v n) ≠ p := by
  induction n with
  | zero => omega
  | succ n ih =>
    unfold leadingRun at h ⊢
    split
    case isTrue hn =>
      have := ih (by simp [hn] at h; omega)
      rwa [show n + 1 - 1 - (leadingRun p v n + 1) = n - 1 - leadingRun p v n by omega]
    case isFalse hn => simpa using hn

/-- One bit of `setBit`. -/
theorem getLsbD_setBit (m : Word) {i j : Nat} (hj : j < 32) :
    (setBit m i).getLsbD j = (m.getLsbD j || decide (i = j)) := by
  simp [setBit, hj, eq_comm]

/-- The counter of the scan (40_prefix_engine.md R52). -/
theorem scanFrom_plen (e : Word) (n : Nat) (acc : PrefixScan) :
    (scanFrom e n acc).plen = acc.plen + leadingRun true e n := by
  induction n generalizing acc with
  | zero => simp [scanFrom, leadingRun]
  | succ n ih =>
    unfold scanFrom leadingRun
    split
    case isTrue h => rw [ih]; simp only; omega
    case isFalse h => simp

/-- The mask of the scan, bit by bit (R49, R50): bits n−1 down to n − run are set, the others are as they were. -/
theorem scanFrom_mask (e : Word) {n i : Nat} (acc : PrefixScan) (hi : i < 32) (hn : n ≤ 32) :
    (scanFrom e n acc).mask.getLsbD i =
      (acc.mask.getLsbD i || (decide (i < n) && decide (n - leadingRun true e n ≤ i))) := by
  induction n generalizing acc with
  | zero => simp [scanFrom]
  | succ n ih =>
    unfold scanFrom leadingRun
    split
    case isTrue h =>
      rw [ih _ (by omega), getLsbD_setBit _ hi, Bool.or_assoc]
      congr 1
      by_cases hin : n = i
      · subst hin; simp
      · simp only [hin, decide_false, Bool.false_or, show (i < n + 1 ↔ i < n) by omega,
          show n + 1 - (leadingRun true e n + 1) = n - leadingRun true e n by omega]
    case isFalse h => simp

/-- E is all that the scan sees of A and B (R47). -/
theorem getLsbD_equalBits (a b : Word) {i : Nat} (hi : i < 32) :
    (equalBits a b).getLsbD i = decide (a.getLsbD i = b.getLsbD i) := by
  simp [equalBits, hi]
  cases a.getLsbD i <;> cases b.getLsbD i <;> rfl

/-- The count of a response is below 2^33, so its 64-bit field loses nothing (41_derivations.md R61). -/
theorem deriveAddressCount_lt (plen : Nat) : deriveAddressCount plen < 2 ^ 64 :=
  Nat.lt_of_le_of_lt (Nat.pow_le_pow_right (by decide) (Nat.sub_le 32 plen)) (by decide)

end Sys2Proof.Machine
end

