-- ==== Sys2Proof/Laws/Step.lean ====
section
/-! SUPPORT. What one step can do, said once: every later proof about steps cites `step_cases`. -/

namespace Sys2Proof.Machine

/-- Everything one step can do. -/
theorem step_cases {s t : State} (h : step s = .next t) :
    (∃ v rest, s.events = .drive v :: rest ∧ t = { s with rsp := none, events := rest, port := v }) ∨
    (∃ p rest, s.events = .accept :: rest ∧ s.port = some p ∧
      t = { s with rsp := none, events := rest, inflight := s.inflight ++ [p.capture], port := none }) ∨
    (∃ rest, s.events = .accept :: rest ∧ s.port = none ∧ t = { s with rsp := none, events := rest }) ∨
    (∃ q rest c others, s.events = .serve q :: rest ∧ takeOldest q s.inflight = some (c, others) ∧
      t = { s with rsp := some c.answer, log := s.log ++ [c.delivery], events := rest, inflight := others }) ∨
    (∃ q rest, s.events = .serve q :: rest ∧ takeOldest q s.inflight = none ∧
      t = { s with rsp := none, events := rest }) ∨
    (∃ c others, s.events = [] ∧ takeArbitrated (Config.arbitration s.draws) s.inflight = some (c, others) ∧
      t = { s with rsp := some c.answer, log := s.log ++ [c.delivery], inflight := others, draws := s.draws + 1 }) ∨
    (s.events = [] ∧ s.inflight = [] ∧ t = { s with rsp := none }) ∨
    (∃ rest c others, s.events = .reset :: rest ∧
      takeArbitrated (Config.arbitration s.draws) s.inflight = some (c, others) ∧ Config.resetInflight s.draws = true ∧
      t = { s with rsp := some c.answer, log := s.log ++ [c.delivery], inflight := others, draws := s.draws + 1 }) ∨
    (∃ rest c others, s.events = .reset :: rest ∧
      takeArbitrated (Config.arbitration s.draws) s.inflight = some (c, others) ∧ Config.resetInflight s.draws = false ∧
      t = { s with rsp := none, inflight := others, draws := s.draws + 1 }) ∨
    (∃ rest, s.events = .reset :: rest ∧ s.inflight = [] ∧ t = { s with rsp := none, events := rest }) := by
  unfold step act at h
  split at h
  case h_1 ha =>
    unfold drain at h
    split at h
    case h_1 c others hc =>
      rw [completeRequest_eq] at h
      cases h
      exact .inr (.inr (.inr (.inr (.inr (.inl ⟨c, others, ha, hc, rfl⟩)))))
    case h_2 hc =>
      cases h
      exact .inr (.inr (.inr (.inr (.inr (.inr (.inl ⟨ha, takeArbitrated_eq_none_iff.mp hc, rfl⟩))))))
  case h_2 v rest ha =>
    cases h
    exact .inl ⟨v, rest, ha, rfl⟩
  case h_3 rest ha =>
    cases h
    cases hp : s.port with
    | some p =>
      refine .inr (.inl ⟨p, rest, ha, rfl, ?_⟩)
      rw [State.acceptRequest_of_some (s := s.quiet.withEvents rest) (p := p) hp]
      rfl
    | none =>
      refine .inr (.inr (.inl ⟨rest, ha, rfl, ?_⟩))
      rw [State.acceptRequest_of_none (s := s.quiet.withEvents rest) hp]
      simp [State.quiet, State.withEvents, hp]
  case h_4 q rest ha =>
    unfold serveOldest at h
    split at h
    case h_1 c others hc =>
      rw [completeRequest_eq] at h
      cases h
      exact .inr (.inr (.inr (.inl ⟨q, rest, c, others, ha, hc, rfl⟩)))
    case h_2 hc =>
      cases h
      exact .inr (.inr (.inr (.inr (.inl ⟨q, rest, ha, hc, rfl⟩))))
  case h_5 rest ha =>
    unfold resetStep at h
    split at h
    case h_1 c others hc =>
      unfold resolveAtReset at h
      split at h
      case isTrue hf =>
        rw [completeRequest_eq] at h
        cases h
        exact .inr (.inr (.inr (.inr (.inr (.inr (.inr (.inl ⟨rest, c, others, ha, hc, hf, rfl⟩)))))))
      case isFalse hf =>
        cases h
        exact .inr (.inr (.inr (.inr (.inr (.inr (.inr (.inr (.inl
          ⟨rest, c, others, ha, hc, by simpa using hf, rfl⟩))))))))
    case h_2 hc =>
      cases h
      exact .inr (.inr (.inr (.inr (.inr (.inr (.inr (.inr (.inr
        ⟨rest, ha, takeArbitrated_eq_none_iff.mp hc, rfl⟩))))))))

/-- Running is stepping: one step, and then the rest of the run. -/
theorem runSteps_succ {s u : State} (k : Nat) (h : step s = .next u) : runSteps (k + 1) s = runSteps k u := by
  have hcore : Sys2Proof.core.step s = .next u := h
  simp only [runSteps, Host.Core.run, hcore]
  rfl

end Sys2Proof.Machine
end

