-- ==== Sys2Proof/Tests/Slice0.lean ====
section
/-! SUPPORT. The model's own tests. Expected values come from the spec: 95_test_vectors.md and the examples of the rules. The second
half gives, for every statement with hypotheses, a concrete input that meets all of them (and what the statement then says of it). -/

namespace Sys2Proof.Machine

/-! ### Well-formedness: what each check refuses -/

/-- A request short of one octet is refused (R29, R44). -/
theorem test_requestWf_refuses_seven_octets : requestWf [10, 0, 0, 1, 10, 0, 0] = false := by decide

/-- A request with one octet too many is refused (R44). -/
theorem test_requestWf_refuses_nine_octets : requestWf [10, 0, 0, 1, 10, 0, 0, 1, 0] = false := by decide

/-- The non-contiguous mask of 90_conflicts.md C6 is refused (R51). -/
theorem test_maskWf_refuses_a_gap : maskWf 0xF0F00000 = false := by decide

/-- No instruction is ill-formed (R43): the extreme words are legal. -/
theorem test_every_word_is_legal : (decodeReq 0).wf = true ∧ (decodeReq 0xFFFFFFFFFFFFFFFF).wf = true := by decide

/-- The wrong literal of the source's scenario 1 (C1) and the reference's wrapped count (C2) keep no law of a response. -/
theorem test_response_wf_refuses_the_sources_errors :
    Response.wf ⟨0xFFFFFFE0, 28, 0xC0A80100, 16⟩ = false ∧ Response.wf ⟨0, 0, 0, 0⟩ = false := by decide

/-! ### Decoding and encoding: words written out from R39 -/

/-- CIDR 192.168.1.10, 192.168.1.20, its 64 bits written out octet by octet. -/
theorem test_decode_scenario1 :
    decodeReq 0b1100000010101000000000010000101011000000101010000000000100010100 = .cidr 0xC0A8010A 0xC0A80114 := by decide

/-- CIDR 1.2.3.4, 129.2.3.4: every octet of A differs from every other, so a swapped octet would show. -/
theorem test_decode_octets : decodeOctets [1, 2, 3, 4, 129, 2, 3, 4] = .ok (.cidr 0x01020304 0x81020304) := by decide

theorem test_decode_rejects_by_name :
    decodeOctets [] = .error .shortRequest ∧ decodeOctets [1, 2, 3, 4, 5, 6, 7, 8, 9] = .error .longRequest := by decide

theorem test_encode_scenario4 : encodeReq (.cidr 0xC0A80000 0xC0A8FFFF) = 0xC0A80000C0A8FFFF := by decide

theorem test_table_word : decodeTableWord 64 0xAC100504AC1FC801 = some (.cidr 0xAC100504 0xAC1FC801) := by decide

/-- R44: no request has more than 64 bits, or fewer, or a value that 64 bits do not hold. -/
theorem test_table_word_of_another_length :
    decodeTableWord 72 0 = none ∧ decodeTableWord 32 5 = none ∧ decodeTableWord 64 (2 ^ 64) = none := by decide

/-- R44: what is no request is not served. -/
theorem test_shorter_word_is_not_placed : State.reset.withFetchWord 32 5 = State.reset := by decide

/-! ### CIDR -/

/-- Scenario 1, corrected by C1, as the first request after reset. -/
theorem test_cidr_scenario1 :
    step (State.reset.withFetchWord 64 0xC0A8010AC0A80114) =
      .next { State.reset with
        rsp := some ⟨0xFFFFFFE0, 27, 0xC0A80100, 32⟩, log := [⟨0, ⟨0xFFFFFFE0, 27, 0xC0A80100, 32⟩⟩] } := by rfl

/-- Scenario 3: PLEN 0, and COUNT does not wrap (R60). -/
theorem test_cidr_count_does_not_wrap : cidrResponse 0x01020304 0x81020304 = ⟨0, 0, 0, 0x100000000⟩ := by decide

/-- 95_test_vectors.md section 2.1, row 8: E has 1s below the mismatch, MASK has none (R50). -/
theorem test_short_circuit : (computePrefix 0x12345678 0x1234F678).mask = 0xFFFF0000 := by decide

/-- 90_conflicts.md C6: on 0xF0F0_0000 the leading-ones count is 4 and the popcount is 8. -/
theorem test_counts_differ_on_a_gap : leadingOnes32 0xF0F00000 = 4 ∧ popcount32 0xF0F00000 = 8 := by decide

/-! ### Assembler text (R45) -/

theorem test_dotted_text :
    String.ofList (dottedRequestText (.cidr 0xC0A8010A 0xC0A80114)) = "CIDR 192.168.1.10, 192.168.1.20" := by decide

theorem test_hex_text :
    String.ofList (hexRequestText (.cidr 0xC0A8010A 0xC0A80114)) = "CIDR 0xC0A8010A, 0xC0A80114" := by decide

theorem test_response_text :
    String.ofList (responseText ⟨0xFFFFFFE0, 27, 0xC0A80100, 32⟩) =
      "-> MASK 255.255.255.224 PLEN 27 NET 192.168.1.0 COUNT 32" := by decide

theorem test_read_rejects_octet_256 :
    readRequest (mnemonicText ++ ['2', '5', '6', '.', '0', '.', '0', '.', '0', ',', ' ', '0', '.', '0', '.', '0', '.', '0']) =
      none := by decide

/-! ### Transactions -/

/-- Requester 1 presents CIDR 203.0.113.77, 203.0.113.76 (95_test_vectors.md section 3.4) and the block accepts it. -/
def exAccepting : State :=
  { State.reset with port := some ⟨1, 0xCB00714D, 0xCB00714C⟩, events := [.accept] }

/-- Two requesters with requests in flight: 1 has two, 2 has one between them. -/
def exInflight : List Captured :=
  [⟨1, 0xCB00714DCB00714C⟩, ⟨2, 0x0A0000010A000001⟩, ⟨1, 0xC0A80000C0A8FFFF⟩]

/-- Their services, requester 2 first. -/
def exServing : State :=
  { State.reset with inflight := exInflight, events := [.serve 2, .serve 1, .serve 1] }

/-- Reset is asserted while one request is in flight; afterwards requester 5 issues CIDR 10.0.0.0, 10.0.0.255. -/
def exResetting : State :=
  { State.reset with
    inflight := [⟨1, 0xCB00714DCB00714C⟩]
    events := [.reset, .drive (some ⟨5, 0x0A000000, 0x0A0000FF⟩), .accept, .serve 5] }

theorem test_accept_captures_a_then_b :
    step exAccepting = .next { State.reset with inflight := [⟨1, 0xCB00714DCB00714C⟩] } := by rfl

/-- Requester 2 is served out of the order of acceptance, with its own response (R34); the others stay in order. -/
theorem test_serve_takes_the_named_requesters_oldest :
    step exServing = .next { exServing with
      inflight := [⟨1, 0xCB00714DCB00714C⟩, ⟨1, 0xC0A80000C0A8FFFF⟩]
      events := [.serve 1, .serve 1]
      rsp := some ⟨0xFFFFFFFF, 32, 0x0A000001, 1⟩
      log := [⟨2, ⟨0xFFFFFFFF, 32, 0x0A000001, 1⟩⟩] } := by rfl

/-- Both outcomes of 95_test_vectors.md section 3.4 for the first request (R83). -/
theorem test_reset_drops_or_completes :
    resolveAtReset false ⟨1, 0xCB00714DCB00714C⟩ State.reset = .next State.reset ∧
    resolveAtReset true ⟨1, 0xCB00714DCB00714C⟩ State.reset = .next { State.reset with
      rsp := some ⟨0xFFFFFFFE, 31, 0xCB00714C, 2⟩, log := [⟨1, ⟨0xFFFFFFFE, 31, 0xCB00714C, 2⟩⟩] } := ⟨rfl, rfl⟩

theorem test_reset_without_requests :
    step { State.reset with events := [.reset] } = .next State.reset := by rfl

/-! ### Witnesses: concrete inputs that meet the hypotheses of the statements -/

theorem witness_OctetKOccupiesItsEightBits :
    (3 < 4 ∧ 7 < 8 ∧ (octetOf 0x00000080 3).getLsbD 7 = true) ∧ (0 < 4 ∧ 0 < 8 ∧ (octetOf 0x01000000 0).getLsbD 0 = true) := by
  decide

theorem witness_RequestWordIsTheTwoOperands :
    (31 < 32 ∧ 3 < 4 ∧ octetOf 0x01020304 3 = BitVec.extractLsb' 32 8 (0x0102030481020304 : Req)) ∧
      decodeReq 0x0102030481020304 = decodeReq 0x0102030481020304 := by decide

theorem witness_DecodeAndEncodeAgree : Instr.wf (.cidr 0x01020304 0x81020304) = true := rfl

theorem witness_OnlyEightOctetsAreARequest :
    ([1, 2, 3, 4, 5, 6, 7] : List Octet).length < 8 ∧ 8 < ([1, 2, 3, 4, 5, 6, 7, 8, 9] : List Octet).length := by decide

theorem witness_OnlySixtyFourBitsAreATableRequest :
    (64 = 64 ∧ 2 ^ 64 - 1 < 2 ^ 64 ∧ decodeTableWord 64 (2 ^ 64 - 1) = some (.cidr 0xFFFFFFFF 0xFFFFFFFF)) ∧
      decodeTableWord 63 5 = none ∧ decodeTableWord 65 5 = none ∧ decodeTableWord 64 (2 ^ 64) = none := by decide

theorem witness_ResponseFieldsKeepTheirConstantBits :
    (cidrResponse 0xC0A8010A 0xC0A80114).plen.toNat < 32 ∧ 4 ≤ 31 - (cidrResponse 0xC0A8010A 0xC0A80114).plen.toNat ∧
      33 ≤ 33 ∧ 63 < 64 ∧ (cidrResponse 0 0x80000000).plen.toNat = 0 ∧
      (cidrResponse 0 0x80000000).count.getLsbD 32 = true := by decide

theorem witness_ComparatorMarksTheEqualBits :
    31 < 32 ∧ (equalBits 0x80000000 0x80000001).getLsbD 31 = true ∧ (equalBits 0x80000000 0x80000001).getLsbD 0 = false := by
  decide

theorem witness_MaskBitIsTheAndOfTheBitsAbove :
    (0 < 32 ∧ (computePrefix 9 9).mask.getLsbD 0 = true) ∧
      (31 < 32 ∧ (0x80000000 : Word).getLsbD 31 ≠ (0 : Word).getLsbD 31 ∧ (computePrefix 0x80000000 0).mask = 0) := by decide

theorem witness_NoMaskBitFromAMismatchDown :
    (4 < 32 ∧ (0xC0A8010A : Word).getLsbD 4 ≠ (0xC0A80114 : Word).getLsbD 4 ∧ 0 ≤ 4) ∧
      (0 < 1 ∧ 1 < 32 ∧ (equalBits 0 3).getLsbD 1 = false ∧ (equalBits 0 3).getLsbD 0 = false) := by decide

theorem witness_MaskIsALeadingRunOfOnes :
    (5 < 32 ∧ 32 - (computePrefix 0xC0A8010A 0xC0A80114).plen ≤ 5) ∧ 4 < 32 - (computePrefix 0xC0A8010A 0xC0A80114).plen := by
  decide

theorem witness_PrefixLengthHasItsClosedForms :
    (0 < 32 ∧ 31 < 32) ∧ (0x80000000 : Word).getLsbD 31 ≠ (0 : Word).getLsbD 31 ∧
      (0 < 4 ∧ (0x80000000 : Word).getLsbD (31 - 8 * 0) ≠ (0 : Word).getLsbD (31 - 8 * 0)) ∧
      (3 < 4 ∧ (∀ j < 32, 31 - 8 * 3 < j → (0x80 : Word).getLsbD j = (0 : Word).getLsbD j) ∧
        (0x80 : Word).getLsbD (31 - 8 * 3) ≠ (0 : Word).getLsbD (31 - 8 * 3) ∧ (computePrefix 0x80 0).plen = 8 * 3) := by
  decide

theorem witness_MaskFollowsFromPrefixLength :
    (computePrefix 0x80000000 0).plen = 0 ∧ (computePrefix 7 7).plen = 32 ∧
      (0 < (computePrefix 0 1).plen ∧ (computePrefix 0 1).plen < 32) := by decide

theorem witness_ComputePrefixKeepsTheSourcesProperties :
    (octetOf 0x01020304 0).getLsbD 7 ≠ (octetOf 0x81020304 0).getLsbD 7 ∧
      (0 < 4 ∧ 4 < 32 ∧ (computePrefix 0xC0A8010A 0xC0A80114).mask.getLsbD 4 = false) := by decide

theorem witness_PrefixLengthIsTheLongest :
    (27 ≤ 32 ∧ (0xC0A8010A : Word).toNat / 2 ^ (32 - 27) = (0xC0A80114 : Word).toNat / 2 ^ (32 - 27)) ∧
      (28 ≤ 32 ∧ (0xC0A8010A : Word).toNat / 2 ^ (32 - 28) ≠ (0xC0A80114 : Word).toNat / 2 ^ (32 - 28)) := by decide

theorem witness_NetworkIsTheMaskedAddress :
    (computePrefix 7 7).plen = 32 ∧ (computePrefix 0x80000000 0).plen = 0 ∧
      4 < 32 - (computePrefix 0xC0A8010A 0xC0A80114).plen := by decide

theorem witness_CountIsTheExactPowerOfTwo :
    (cidrResponse 0x80000000 0).plen = 0 ∧ (cidrResponse 0xC0A8010A 0xC0A80114).plen = 27 ∧ (cidrResponse 0 1).plen = 31 ∧
      (cidrResponse 7 7).plen = 32 ∧ 0 ≤ 32 ∧ 32 ≤ 32 := by decide

theorem witness_CountFieldLosesNothing :
    1 ≤ (cidrResponse 0 0x40000000).plen.toNat ∧ (cidrResponse 0 0x80000000).plen = 0 := by decide

theorem witness_CidrAnswersItsResponse :
    (0xC0A8010A : Word).getLsbD 4 ≠ (0xC0A80114 : Word).getLsbD 4 ∧ 0 < 32 ∧ 0 ≤ 4 ∧
      (0x01020304 : Word).getLsbD 31 ≠ (0x81020304 : Word).getLsbD 31 ∧
      (∀ j < 32, 31 - 8 * 1 < j → (0x0A000000 : Word).getLsbD j = (0x0A800000 : Word).getLsbD j) ∧
      (0x0A000000 : Word).getLsbD (31 - 8 * 1) ≠ (0x0A800000 : Word).getLsbD (31 - 8 * 1) := by decide

theorem witness_CidrChangesOnlyTheResponsePort :
    exec (.cidr 0x0A000001 0x0A000001) exAccepting =
      .next { exAccepting with rsp := some ⟨0xFFFFFFFF, 32, 0x0A000001, 1⟩ } := by rfl

theorem witness_ResponseFieldsAreRelated : (cidrResponse 0xC0A8010A 0xC0A80114).plen.toNat < 32 := by decide

theorem witness_EqualRequestsGetEqualResponses :
    ∃ t t', exec (.cidr 1 2) exAccepting = .next t ∧ exec (.cidr 1 2) exServing = .next t' ∧ t ≠ t' :=
  ⟨_, _, rfl, rfl, by decide⟩

theorem witness_StepRunsTheDecodedRequest :
    exServing.events = .serve 2 :: [.serve 1, .serve 1] ∧
      takeOldest 2 exServing.inflight =
        some (⟨2, 0x0A0000010A000001⟩, [⟨1, 0xCB00714DCB00714C⟩, ⟨1, 0xC0A80000C0A8FFFF⟩]) ∧
      Instr.wf (.cidr 0x0A000001 0x0A000001) = true ∧
      (0x0A0000010A000001 : Req) = encodeReq (.cidr 0x0A000001 0x0A000001) ∧
      ∃ u, exec (.cidr 0x0A000001 0x0A000001) { exServing with
        rsp := none
        events := [.serve 1, .serve 1]
        inflight := [⟨1, 0xCB00714DCB00714C⟩, ⟨1, 0xC0A80000C0A8FFFF⟩] } = .next u :=
  ⟨rfl, by decide, rfl, by decide, _, rfl⟩

theorem witness_AcceptanceCapturesBothOperands :
    (exAccepting.events = .accept :: [] ∧ exAccepting.port = some ⟨1, 0xCB00714D, 0xCB00714C⟩) ∧
      (State.events { State.reset with events := [.accept] } = .accept :: [] ∧
        State.port { State.reset with events := [.accept] } = none) := by decide

theorem witness_OtherStepsChangeNoTransaction :
    (exServing.events = .serve 2 :: [.serve 1, .serve 1] ∧ ∀ c ∈ ([⟨1, 0⟩] : List Captured), c.requester ≠ 2) ∧
      State.events { State.reset with events := [.drive none] } = .drive none :: [] ∧ State.reset.quiescent = true := by decide

theorem witness_PortChangesAfterAcceptanceHaveNoEffect :
    (∀ x ∈ exServing.events, x ≠ .accept) ∧
      ∃ t t', runSteps 2 exServing = .next t ∧ runSteps 2 { exServing with port := some ⟨1, 7, 8⟩ } = .next t' ∧ t ≠ t' :=
  ⟨by decide, _, _, rfl, rfl, by decide⟩

theorem witness_ResponsePortCarriesOnlyDeliveries :
    (∃ t, step exServing = .next t ∧ t.rsp.isSome = true) ∧ (∃ t, step exAccepting = .next t ∧ t.rsp = none) :=
  ⟨⟨_, rfl, rfl⟩, ⟨_, rfl, rfl⟩⟩

theorem witness_StepConservesResponses :
    (∃ t, step exAccepting = .next t) ∧ exAccepting.resetting = false ∧ exAccepting.acceptsNow ≠ [] :=
  ⟨⟨_, rfl⟩, by decide, by decide⟩

theorem witness_EveryRequestIsAnsweredOnceInOrder :
    (∀ x ∈ exServing.events, x ≠ .reset) ∧ 0 < exServing.workLeft ∧ exServing.owedTo 1 ≠ [] := by decide

theorem witness_EveryStepLeavesLessToDo : (∃ t, step exServing = .next t) ∧ 0 < exServing.workLeft :=
  ⟨⟨_, rfl⟩, by decide⟩

theorem witness_EveryOrderOfServiceIsAdmitted :
    exServing.events = [2, 1, 1].map .serve ∧ List.Perm [2, 1, 1] (exServing.inflight.map (·.requester)) := by decide

/-- Two requesters whose requests are accepted in either order, with their services anywhere. -/
theorem witness_InterleavingChangesNoResponse :
    let s : State := { State.reset with
      events := [.drive (some ⟨1, 3, 4⟩), .accept, .serve 1, .drive (some ⟨2, 5, 6⟩), .accept, .serve 2] }
    let as : List Event :=
      [.drive (some ⟨2, 5, 6⟩), .accept, .drive (some ⟨1, 3, 4⟩), .accept, .serve 1, .serve 2]
    (∀ x ∈ s.events, x ≠ .reset) ∧ (∀ x ∈ as, x ≠ .reset) ∧
      (∀ q : RequesterId, (acceptedBy s.events s.port).filter (·.requester = q) =
        (acceptedBy as s.port).filter (·.requester = q)) ∧
      ∃ t t', runSteps s.workLeft s = .next t ∧
        runSteps (State.workLeft { s with events := as }) { s with events := as } = .next t' := by
  refine ⟨by decide, by decide, fun q => ?_, _, _, rfl, rfl⟩
  by_cases h1 : 1 = q
  · subst h1; decide
  · by_cases h2 : 2 = q
    · subst h2; decide
    · simp [acceptedBy, Presented.capture, h1, h2]

theorem witness_ResetDropsOrCompletesARequest :
    decodeReq 0xCB00714DCB00714C = .cidr 0xCB00714D 0xCB00714C ∧
      exResetting.events = .reset :: [.drive (some ⟨5, 0x0A000000, 0x0A0000FF⟩), .accept, .serve 5] ∧
      exResetting.inflight ≠ [] := by decide

theorem witness_ResetEndsWithNothingInFlight :
    exResetting.events = .reset :: [.drive (some ⟨5, 0x0A000000, 0x0A0000FF⟩), .accept, .serve 5] ∧
      exResetting.owedTo 1 = [⟨0xFFFFFFFE, 31, 0xCB00714C, 2⟩] := by decide

theorem witness_FirstRequestAfterResetIsServed :
    exResetting.events = [.reset, .drive (some ⟨5, 0x0A000000, 0x0A0000FF⟩), .accept, .serve 5] := by decide

theorem witness_StepKeepsTheInvariant : exServing.inv = true ∧ ∃ t, step exServing = .next t ∧ t.log ≠ [] :=
  ⟨by decide, _, rfl, by decide⟩

end Sys2Proof.Machine
end

-- The longest common prefix (R13, R52, R67): PLEN read as a statement about the leading bits of A and B.
section
namespace Sys2Proof.Machine

/-- A leading run has length at least m exactly when the top m of the n bits scanned all equal p. -/
theorem le_leadingRun_iff {p : Bool} {v : Word} {n m : Nat} (hm : m ≤ n) :
    m ≤ leadingRun p v n ↔ ∀ i, n - m ≤ i → i < n → v.getLsbD i = p := by
  constructor
  · intro h i hlo hi
    exact leadingRun_bit (by omega) hi
  · intro h
    by_contra hlt
    have hstop : leadingRun p v n < n := by omega
    exact leadingRun_stop hstop (h _ (by omega) (by omega))

/-- PLEN is the length of E's leading run of 1s (R52). -/
theorem computePrefix_plen (a b : Word) : (computePrefix a b).plen = leadingRun true (equalBits a b) 32 := by
  simp [computePrefix, scanFrom_plen]

/-- PLEN is at least p exactly when A and B agree on bits 31 down to 32 − p. -/
theorem le_computePrefix_plen_iff {a b : Word} {p : Nat} (hp : p ≤ 32) :
    p ≤ (computePrefix a b).plen ↔ ∀ i, 32 - p ≤ i → i < 32 → a.getLsbD i = b.getLsbD i := by
  rw [computePrefix_plen, le_leadingRun_iff hp]
  refine forall_congr' fun i => imp_congr_right fun _ => forall_congr' fun hi => ?_
  rw [getLsbD_equalBits a b hi, decide_eq_true_iff]

/-- Two words have equal quotients by 2^k exactly when they agree on every bit from k up. -/
theorem toNat_div_two_pow_eq_iff {a b : Word} {k : Nat} :
    a.toNat / 2 ^ k = b.toNat / 2 ^ k ↔ ∀ i, k ≤ i → i < 32 → a.getLsbD i = b.getLsbD i := by
  rw [← Nat.shiftRight_eq_div_pow, ← Nat.shiftRight_eq_div_pow, ← BitVec.toNat_ushiftRight,
    ← BitVec.toNat_ushiftRight, BitVec.toNat_inj]
  constructor
  · intro h i hk _
    have hbit := congrArg (·.getLsbD (i - k)) h
    simpa [Nat.add_sub_cancel' hk] using hbit
  · intro h
    refine BitVec.eq_of_getLsbD_eq fun j _ => ?_
    rw [BitVec.getLsbD_ushiftRight, BitVec.getLsbD_ushiftRight]
    by_cases hj : k + j < 32
    · exact h _ (Nat.le_add_right k j) hj
    · rw [BitVec.getLsbD_of_ge _ _ (by omega), BitVec.getLsbD_of_ge _ _ (by omega)]

/-- Settles O15: both sides say that A and B agree on bits 31 down to 32 − p. -/
theorem prefixLengthIsTheLongest : Obligations.PrefixLengthIsTheLongest := by
  intro a b p hp
  rw [toNat_div_two_pow_eq_iff, le_computePrefix_plen_iff hp]

end Sys2Proof.Machine
end

-- The laws of a response (R40, R51, R53, R56, R58), proved of CIDR for all operands.
section
namespace Sys2Proof.Machine

/-- PLEN is at most 32 (R52). -/
theorem computePrefix_plen_le (a b : Word) : (computePrefix a b).plen ≤ 32 := by
  rw [computePrefix_plen]
  exact leadingRun_le true (equalBits a b) 32

/-- A bit of MASK is 1 exactly from bit 32 − PLEN up (R51). -/
theorem getLsbD_computePrefix_mask (a b : Word) {i : Nat} (hi : i < 32) :
    (computePrefix a b).mask.getLsbD i = decide (32 - (computePrefix a b).plen ≤ i) := by
  rw [computePrefix_plen, computePrefix, scanFrom_mask _ _ hi (Nat.le_refl 32)]
  simp [hi]

/-- The complement of MASK is 32 − PLEN ones at the low end (R59). -/
theorem toNat_not_computePrefix_mask (a b : Word) :
    (~~~(computePrefix a b).mask).toNat = 2 ^ (32 - (computePrefix a b).plen) - 1 := by
  refine Nat.eq_of_testBit_eq fun i => ?_
  rw [BitVec.testBit_toNat, BitVec.getLsbD_not, Nat.testBit_two_pow_sub_one]
  by_cases hi : i < 32
  · simp only [hi, decide_true, Bool.true_and, getLsbD_computePrefix_mask a b hi,
      ← decide_not, Nat.not_le]
  · simp only [hi, decide_false, Bool.false_and, show ¬ i < 32 - (computePrefix a b).plen by omega]

/-- MASK's value is 2^32 − 2^(32 − PLEN) (R53). -/
theorem toNat_computePrefix_mask (a b : Word) :
    (computePrefix a b).mask.toNat = 2 ^ 32 - 2 ^ (32 - (computePrefix a b).plen) := by
  have hnot := toNat_not_computePrefix_mask a b
  rw [BitVec.toNat_not] at hnot
  have hlt := (computePrefix a b).mask.isLt
  have hpos : 0 < 2 ^ (32 - (computePrefix a b).plen) := Nat.two_pow_pos _
  omega

@[simp] theorem cidrResponse_mask (a b : Word) : (cidrResponse a b).mask = (computePrefix a b).mask := rfl
@[simp] theorem cidrResponse_net (a b : Word) : (cidrResponse a b).net = a &&& (computePrefix a b).mask := rfl

/-- The 8-bit PLEN field loses nothing (R52). -/
@[simp] theorem toNat_cidrResponse_plen (a b : Word) :
    (cidrResponse a b).plen.toNat = (computePrefix a b).plen := by
  have hle := computePrefix_plen_le a b
  exact Nat.mod_eq_of_lt (by omega)

/-- The 64-bit COUNT field loses nothing (R61). -/
@[simp] theorem toNat_cidrResponse_count (a b : Word) :
    (cidrResponse a b).count.toNat = 2 ^ (32 - (computePrefix a b).plen) :=
  Nat.mod_eq_of_lt (deriveAddressCount_lt (computePrefix a b).plen)

/-- NET has no bit outside MASK (R67 (c)). -/
theorem cidrResponse_net_and_not_mask (a b : Word) :
    (cidrResponse a b).net &&& ~~~(cidrResponse a b).mask = 0 := by
  rw [cidrResponse_net, cidrResponse_mask, BitVec.and_assoc, BitVec.and_not_self]
  exact BitVec.and_zero

/-- What the laws of a response say, as propositions. -/
theorem Response.wf_iff (r : Response) :
    r.wf = true ↔ r.plen.toNat ≤ 32 ∧ r.mask.toNat = 2 ^ 32 - 2 ^ (32 - r.plen.toNat) ∧
      r.count.toNat = 2 ^ (32 - r.plen.toNat) ∧ r.net &&& ~~~r.mask = 0 := by
  simp only [Response.wf, Bool.and_eq_true, decide_eq_true_eq, and_assoc]

/-- Every response of CIDR keeps the laws of a response. -/
theorem cidrResponse_wf (a b : Word) : (cidrResponse a b).wf = true := by
  rw [Response.wf_iff, toNat_cidrResponse_plen]
  exact ⟨computePrefix_plen_le a b, toNat_computePrefix_mask a b, toNat_cidrResponse_count a b,
    cidrResponse_net_and_not_mask a b⟩

end Sys2Proof.Machine
end

-- What a step delivers (R23, R29), and the invariant of responses.
section
namespace Sys2Proof.Machine

/-- The answer to a captured request is the response of CIDR to the two operands it decodes to (R14). -/
theorem Captured.answer_eq_cidrResponse (c : Captured) :
    ∃ a b : Word, decodeReq c.req = .cidr a b ∧ c.answer = cidrResponse a b :=
  ⟨_, _, rfl, rfl⟩

/-- The answer to a captured request keeps the laws of a response. -/
theorem Captured.answer_wf (c : Captured) : c.answer.wf = true := by
  obtain ⟨a, b, -, hanswer⟩ := c.answer_eq_cidrResponse
  rw [hanswer]
  exact cidrResponse_wf a b

/-- The request that `takeOldest` finds was in flight. -/
theorem takeOldest_mem {q : RequesterId} {l others : List Captured} {c : Captured}
    (h : takeOldest q l = some (c, others)) : c ∈ l := by
  obtain ⟨-, pre, post, rfl, -, -⟩ := takeOldest_spec h
  simp

/-- A step either delivers nothing and leaves the response port empty, or it delivers the whole answer to one request that was
in flight (R23, R29). -/
theorem step_delivers_nothing_or_one {s t : State} (h : step s = .next t) :
    (t.rsp = none ∧ t.log = s.log) ∨
    ∃ c ∈ s.inflight, t.rsp = some c.answer ∧ t.log = s.log ++ [c.delivery] := by
  rcases step_cases h with ⟨_, _, -, rfl⟩ | ⟨_, _, -, -, rfl⟩ | ⟨_, -, -, rfl⟩ |
    ⟨_, _, c, _, -, hserved, rfl⟩ | ⟨_, _, -, -, rfl⟩ | ⟨c, _, -, hdrained, rfl⟩ | ⟨-, -, rfl⟩ |
    ⟨_, c, _, -, hcompleted, -, rfl⟩ | ⟨_, _, _, -, -, -, rfl⟩ | ⟨_, -, -, rfl⟩
  · exact .inl ⟨rfl, rfl⟩
  · exact .inl ⟨rfl, rfl⟩
  · exact .inl ⟨rfl, rfl⟩
  · exact .inr ⟨c, takeOldest_mem hserved, rfl, rfl⟩
  · exact .inl ⟨rfl, rfl⟩
  · exact .inr ⟨c, takeOldest_mem (takeArbitrated_spec hdrained), rfl, rfl⟩
  · exact .inl ⟨rfl, rfl⟩
  · exact .inr ⟨c, takeOldest_mem (takeArbitrated_spec hcompleted), rfl, rfl⟩
  · exact .inl ⟨rfl, rfl⟩
  · exact .inl ⟨rfl, rfl⟩

/-- What the invariant says, as propositions. -/
theorem State.inv_iff (s : State) :
    s.inv = true ↔ (∀ d ∈ s.log, d.response.wf = true) ∧
      ∀ r, s.rsp = some r → s.log.getLast?.map (·.response) = some r := by
  cases hrsp : s.rsp <;> simp [State.inv, hrsp]

/-- With nothing on the response port, only the log counts for the invariant. -/
theorem State.inv_of_quiet {t : State} (hrsp : t.rsp = none) (hlog : ∀ d ∈ t.log, d.response.wf = true) :
    t.inv = true :=
  t.inv_iff.mpr ⟨hlog, by simp [hrsp]⟩

/-- A delivery onto a log whose responses keep the laws meets the invariant. -/
theorem State.inv_of_delivery {t : State} {c : Captured} {l : List Delivery} (hrsp : t.rsp = some c.answer)
    (hlog : t.log = l ++ [c.delivery]) (hl : ∀ d ∈ l, d.response.wf = true) : t.inv = true := by
  refine t.inv_iff.mpr ⟨fun d hd => ?_, fun r hr => ?_⟩
  · rw [hlog, List.mem_append, List.mem_singleton] at hd
    rcases hd with hold | rfl
    · exact hl d hold
    · exact c.answer_wf
  · rw [hlog, List.getLast?_concat, Option.map_some, ← hr, hrsp]
    rfl

/-- Settles O43: a step that delivers adds a response of CIDR, which keeps the laws; every other step empties the port. -/
theorem stepKeepsTheInvariant : Obligations.StepKeepsTheInvariant := by
  intro s t hinv hstep
  obtain ⟨hlaws, -⟩ := s.inv_iff.mp hinv
  rcases step_delivers_nothing_or_one hstep with ⟨hrsp, hlog⟩ | ⟨c, -, hrsp, hlog⟩
  · exact State.inv_of_quiet hrsp (hlog ▸ hlaws)
  · exact State.inv_of_delivery hrsp hlog hlaws

/-- Settles O31: the answer that a step delivers is the response of CIDR to the operands of its request. -/
theorem responsePortCarriesOnlyDeliveries : Obligations.ResponsePortCarriesOnlyDeliveries := by
  intro s t hstep
  refine (step_delivers_nothing_or_one hstep).imp_right ?_
  rintro ⟨c, hc, hrsp, hlog⟩
  obtain ⟨a, b, hdecode, hanswer⟩ := c.answer_eq_cidrResponse
  rw [Captured.delivery, hanswer] at hlog
  exact ⟨c, hc, a, b, hdecode, hanswer ▸ hrsp, hlog⟩

/-- Settles O39. -/
theorem resetLeavesNoResponsePending : Obligations.ResetLeavesNoResponsePending :=
  ⟨rfl, rfl⟩

/-- Settles O44: the reset state has an empty log and nothing on the response port. -/
theorem resetMeetsTheInvariant : Obligations.ResetMeetsTheInvariant :=
  State.inv_of_quiet resetLeavesNoResponsePending.2 (by simp [State.reset])

end Sys2Proof.Machine
end

-- What CIDR does at a state (R65), and what a step does for a driven port, a service and no event.
section
namespace Sys2Proof.Machine

/-- CIDR puts its response on the response port, and does nothing else (R65). -/
theorem exec_cidr (a b : Word) (s : State) : exec (.cidr a b) s = .next (s.respond (cidrResponse a b)) := rfl

/-- Settles O22: CIDR answers the state with its response on the port, and `respond` changes no other field. -/
theorem cidrChangesOnlyTheResponsePort : Obligations.CidrChangesOnlyTheResponsePort := by
  intro a b s t h
  rw [exec_cidr] at h
  cases h
  simp

/-- Settles O25: what stands on the response port depends on the operands alone. -/
theorem equalRequestsGetEqualResponses : Obligations.EqualRequestsGetEqualResponses := by
  intro i s s' t t' h h'
  cases i with
  | cidr a b =>
    rw [exec_cidr] at h h'
    cases h
    cases h'
    simp

/-- A step whose next event drives the request port. -/
theorem step_of_drive {s : State} {v : Option Presented} {rest : List Event} (h : s.events = .drive v :: rest) :
    step s = .next ((s.quiet.withEvents rest).drivePort v) := by
  simp [step, act, h]

/-- A step whose next event serves a requester. -/
theorem step_of_serve {s : State} {q : RequesterId} {rest : List Event} (h : s.events = .serve q :: rest) :
    step s = serveOldest q (s.quiet.withEvents rest) := by
  simp [step, act, h]

/-- A step with no event left. -/
theorem step_of_no_event {s : State} (h : s.events = []) : step s = drain s.quiet := by
  simp [step, act, h]

/-- Serving a requester that has a request in flight completes its oldest (R34). -/
theorem serveOldest_of_some {q : RequesterId} {s : State} {c : Captured} {others : List Captured}
    (h : takeOldest q s.inflight = some (c, others)) :
    serveOldest q s = completeRequest c (s.withInflight others) := by
  simp [serveOldest, h]

/-- Serving a requester that has nothing in flight does nothing. -/
theorem serveOldest_of_none {q : RequesterId} {s : State} (h : takeOldest q s.inflight = none) :
    serveOldest q s = .next s := by
  simp [serveOldest, h]

/-- With nothing in flight the block idles. -/
theorem drain_of_nil {s : State} (h : s.inflight = []) : drain s = .next s := by
  simp [drain, takeArbitrated_eq_none_iff.mpr h]

/-- A state is quiescent exactly when it has no event and no request in flight. -/
theorem State.quiescent_iff (s : State) : s.quiescent = true ↔ s.events = [] ∧ s.inflight = [] := by
  simp [State.quiescent]

/-- Settles O29, one equation of `step` for each of the three events. -/
theorem otherStepsChangeNoTransaction : Obligations.OtherStepsChangeNoTransaction := by
  refine ⟨fun s v rest hdrive => ?_, fun s q rest hserve hnone => ?_, fun s hquiescent => ?_⟩
  · rw [step_of_drive hdrive]
    rfl
  · rw [step_of_serve hserve,
      serveOldest_of_none (s := s.quiet.withEvents rest) (takeOldest_eq_none_iff.mpr hnone)]
    rfl
  · obtain ⟨hevents, hinflight⟩ := s.quiescent_iff.mp hquiescent
    rw [step_of_no_event hevents, drain_of_nil (s := s.quiet) hinflight]
    rfl

/-- A request that is first in flight is the oldest of its requester. -/
theorem takeOldest_cons_self (c : Captured) (l : List Captured) :
    takeOldest c.requester (c :: l) = some (c, l) := by
  simp [takeOldest]

/-- The step after a request word was placed serves it for requester 0, and gives back the rest of the state. -/
theorem step_placeRequest (s : State) (w : Req) :
    step (s.placeRequest w) = completeRequest ⟨0, w⟩ s.quiet := by
  rw [step_of_serve (q := 0) (rest := s.events) rfl,
    serveOldest_of_some (takeOldest_cons_self ⟨0, w⟩ s.inflight)]
  rfl

/-- Settles O27: the placed word is served next, and its response is the one that exec gives. -/
theorem placedWordIsServedNext : Obligations.PlacedWordIsServedNext := by
  intro s w
  refine ⟨Captured.answer ⟨0, w⟩, exec_decodeReq ⟨0, w⟩ s, ?_⟩
  rw [State.withFetchWord_of_some (reqOfTableWord_toNat w), step_placeRequest, completeRequest_eq]
  rfl

end Sys2Proof.Machine
end

-- One request, from its octets to its service: what the decoder accepts (R29, R44), what an acceptance captures (R29, R87), and
-- what a service runs (R29, R42, R65).
section
namespace Sys2Proof

/-- A list of eight octets is a request (R39). -/
theorem decodeOctets_of_length_eq : ∀ {os : List Octet}, os.length = 8 → ∃ i, decodeOctets os = .ok i
  | [_, _, _, _, _, _, _, _], _ => ⟨_, rfl⟩

/-- A list of any other length is rejected, by the name that its length gives it (R44). -/
theorem decodeOctets_of_length_ne {os : List Octet} (h : os.length ≠ 8) :
    decodeOctets os = if os.length < 8 then .error .shortRequest else .error .longRequest := by
  unfold decodeOctets
  split
  case h_1 => simp at h
  case h_2 => rfl

/-- Decoding a list of octets answers an instruction exactly for a whole request (R29, R44). -/
theorem exists_decodeOctets_iff {os : List Octet} : (∃ i, decodeOctets os = .ok i) ↔ os.length = 8 := by
  refine ⟨?_, decodeOctets_of_length_eq⟩
  rintro ⟨i, hi⟩
  by_contra hne
  rw [decodeOctets_of_length_ne hne] at hi
  split at hi <;> cases hi

/-- Settles O4, by the three ranges of the list's length. -/
theorem onlyEightOctetsAreARequest : Obligations.OnlyEightOctetsAreARequest := by
  intro os
  refine ⟨?_, fun hshort => ?_, fun hlong => ?_⟩
  · rw [exists_decodeOctets_iff, requestWf, beq_iff_eq]
  · rw [decodeOctets_of_length_ne (Nat.ne_of_lt hshort), if_pos hshort]
  · rw [decodeOctets_of_length_ne (Nat.ne_of_gt hlong), if_neg (Nat.lt_asymm hlong)]

/-- The word A:B is the request of A and B (R39). -/
@[simp] theorem decodeReq_append (a b : Word) : decodeReq (a ++ b) = .cidr a b := by
  rw [decodeReq, BitVec.extractLsb'_append_eq_left, BitVec.extractLsb'_append_eq_right]

/-- Decoding the word of an instruction gives the instruction back (R39). -/
@[simp] theorem decodeReq_encodeReq (i : Instr) : decodeReq (encodeReq i) = i := by
  cases i with
  | cidr a b => exact decodeReq_append a b

namespace Machine

/-- What the operation of a captured request answers is delivered to the requester that issued it (R29). -/
theorem completeRequest_of_exec {c : Captured} {s u : State} (h : exec (decodeReq c.req) s = .next u) :
    completeRequest c s = .next (u.deliverTo c.requester) := by
  simp [completeRequest, h]

/-- Settles O26: the word decodes to the instruction it encodes, and serving its request runs that instruction. -/
theorem stepRunsTheDecodedRequest : Obligations.StepRunsTheDecodedRequest := by
  intro s q rest c others i hserve htake _ hreq
  have hdecode : decodeReq c.req = i := by rw [hreq, decodeReq_encodeReq]
  refine ⟨hdecode, fun u hexec => ?_⟩
  obtain ⟨rfl, -⟩ := takeOldest_spec htake
  rw [step_of_serve hserve, serveOldest_of_some (s := s.quiet.withEvents rest) htake]
  exact completeRequest_of_exec (hdecode ▸ hexec)

/-- A step whose next event is an acceptance. -/
theorem step_of_accept {s : State} {rest : List Event} (h : s.events = .accept :: rest) :
    step s = .next (s.quiet.withEvents rest).acceptRequest := by
  simp [step, act, h]

/-- Settles O28, one case for a port that presents a request and one for a port that presents none. -/
theorem acceptanceCapturesBothOperands : Obligations.AcceptanceCapturesBothOperands := by
  refine ⟨fun s rest p haccept hport => ?_, fun s rest haccept hport => ?_⟩
  · refine ⟨p.capture, rfl, decodeReq_append p.a p.b, ?_⟩
    rw [step_of_accept haccept, State.acceptRequest_of_some (s := s.quiet.withEvents rest) hport]
    rfl
  · rw [step_of_accept haccept, State.acceptRequest_of_none (s := s.quiet.withEvents rest) hport]
    rfl

end Machine
end Sys2Proof
end

-- Every step answers a next state, one equation of `step` for each thing that a service, a reset or an idle step can do (R70, R83).
section
namespace Sys2Proof.Machine

/-- A step that serves a requester with a request in flight delivers the answer to its oldest (R34). -/
theorem step_of_serve_some {s : State} {q : RequesterId} {rest : List Event} {c : Captured} {others : List Captured}
    (hserve : s.events = .serve q :: rest) (hc : takeOldest q s.inflight = some (c, others)) :
    step s =
      .next { s with rsp := some c.answer, log := s.log ++ [c.delivery], events := rest, inflight := others } := by
  rw [step_of_serve hserve, serveOldest_of_some (s := s.quiet.withEvents rest) hc, completeRequest_eq]
  rfl

/-- A step that serves a requester with nothing in flight only takes the event away. -/
theorem step_of_serve_none {s : State} {q : RequesterId} {rest : List Event}
    (hserve : s.events = .serve q :: rest) (hnone : takeOldest q s.inflight = none) :
    step s = .next (s.quiet.withEvents rest) := by
  rw [step_of_serve hserve, serveOldest_of_none (s := s.quiet.withEvents rest) hnone]

/-- A step with no event left delivers the answer to the request that ARBITRATION names (R30). -/
theorem step_of_drain_some {s : State} {c : Captured} {others : List Captured} (hevents : s.events = [])
    (hc : takeArbitrated (Config.arbitration s.draws) s.inflight = some (c, others)) :
    step s = .next { s with
      rsp := some c.answer, log := s.log ++ [c.delivery], inflight := others, draws := s.draws + 1 } := by
  simp [step_of_no_event hevents, drain, hc, completeRequest_eq, State.quiet, State.withInflight, State.drew]

/-- A step with nothing left to do idles (R16). -/
theorem step_of_idle {s : State} (hevents : s.events = []) (hnone : s.inflight = []) : step s = .next s.quiet := by
  rw [step_of_no_event hevents, drain_of_nil (s := s.quiet) hnone]

/-- A step of a reset is what `resetStep` says. -/
theorem step_of_reset {s : State} {rest : List Event} (hreset : s.events = .reset :: rest) :
    step s = resetStep rest s.quiet := by
  simp [step, act, hreset]

/-- A step of a reset takes the request that ARBITRATION names out of flight, completed or dropped (R83). -/
theorem step_of_reset_some {s : State} {rest : List Event} {c : Captured} {others : List Captured}
    (hreset : s.events = .reset :: rest)
    (hc : takeArbitrated (Config.arbitration s.draws) s.inflight = some (c, others)) :
    step s = resolveAtReset (Config.resetInflight s.draws) c (s.quiet.withInflight others).drew := by
  simp [step_of_reset hreset, resetStep, hc]

/-- A request that reset completes is answered like any other (R83). -/
theorem step_of_reset_completed {s : State} {rest : List Event} {c : Captured} {others : List Captured}
    (hreset : s.events = .reset :: rest)
    (hc : takeArbitrated (Config.arbitration s.draws) s.inflight = some (c, others))
    (hfate : Config.resetInflight s.draws = true) :
    step s = .next { s with
      rsp := some c.answer, log := s.log ++ [c.delivery], inflight := others, draws := s.draws + 1 } := by
  rw [step_of_reset_some hreset hc, hfate]
  rfl

/-- A request that reset drops leaves flight with no response (R83). -/
theorem step_of_reset_dropped {s : State} {rest : List Event} {c : Captured} {others : List Captured}
    (hreset : s.events = .reset :: rest)
    (hc : takeArbitrated (Config.arbitration s.draws) s.inflight = some (c, others))
    (hfate : Config.resetInflight s.draws = false) :
    step s = .next { s with rsp := none, inflight := others, draws := s.draws + 1 } := by
  rw [step_of_reset_some hreset hc, hfate]
  rfl

/-- A reset with nothing in flight is over (R82). -/
theorem step_of_reset_none {s : State} {rest : List Event} (hreset : s.events = .reset :: rest)
    (hnone : s.inflight = []) : step s = .next (s.quiet.withEvents rest) := by
  simp [step_of_reset hreset, resetStep, takeArbitrated_eq_none_iff.mpr hnone]

/-- Every step answers a next state (R70). -/
theorem exists_step (s : State) : ∃ t, step s = .next t := by
  cases hevents : s.events with
  | nil =>
    cases hc : takeArbitrated (Config.arbitration s.draws) s.inflight with
    | none => exact ⟨_, step_of_idle hevents (takeArbitrated_eq_none_iff.mp hc)⟩
    | some p => exact ⟨_, step_of_drain_some hevents hc⟩
  | cons e rest =>
    cases e with
    | drive v => exact ⟨_, step_of_drive hevents⟩
    | accept => exact ⟨_, step_of_accept hevents⟩
    | serve q =>
      cases hc : takeOldest q s.inflight with
      | none => exact ⟨_, step_of_serve_none hevents hc⟩
      | some p => exact ⟨_, step_of_serve_some hevents hc⟩
    | reset =>
      cases hc : takeArbitrated (Config.arbitration s.draws) s.inflight with
      | none => exact ⟨_, step_of_reset_none hevents (takeArbitrated_eq_none_iff.mp hc)⟩
      | some p =>
        cases hfate : Config.resetInflight s.draws with
        | false => exact ⟨_, step_of_reset_dropped hevents hc hfate⟩
        | true => exact ⟨_, step_of_reset_completed hevents hc hfate⟩

end Sys2Proof.Machine
end

-- Runs: they go on step by step, never stop with a fault, and come to rest (R30, R70, R88).
section
namespace Sys2Proof.Machine

/-- A run of k + 1 steps is one step and then a run of k steps. -/
theorem runSteps_succ_eq_next {k : Nat} {s t : State} (h : runSteps (k + 1) s = .next t) :
    ∃ u, step s = .next u ∧ runSteps k u = .next t := by
  obtain ⟨u, hu⟩ := exists_step s
  exact ⟨u, hu, runSteps_succ k hu ▸ h⟩

/-- Every run answers a next state (R70). -/
theorem exists_runSteps (k : Nat) (s : State) : ∃ t, runSteps k s = .next t := by
  induction k generalizing s with
  | zero => exact ⟨s, rfl⟩
  | succ k ih =>
    obtain ⟨u, hu⟩ := exists_step s
    rw [runSteps_succ k hu]
    exact ih u

/-- Settles O35: the step takes an event away, for at most one more request in flight, or it takes a request out of flight. -/
theorem everyStepLeavesLessToDo : Obligations.EveryStepLeavesLessToDo := by
  intro s t h hpos
  rcases step_cases h with ⟨_, _, hevents, rfl⟩ | ⟨_, _, hevents, -, rfl⟩ | ⟨_, hevents, -, rfl⟩ |
    ⟨_, _, _, _, hevents, hc, rfl⟩ | ⟨_, _, hevents, -, rfl⟩ | ⟨_, _, -, hc, rfl⟩ | ⟨hevents, hnone, -⟩ |
    ⟨_, _, _, -, hc, -, rfl⟩ | ⟨_, _, _, -, hc, -, rfl⟩ | ⟨_, hevents, -, rfl⟩
  · simp [State.workLeft, hevents]
  · simp only [State.workLeft, hevents, List.length_append, List.length_cons, List.length_nil]
    omega
  · simp [State.workLeft, hevents]
  · simp only [State.workLeft, hevents, takeOldest_length hc, List.length_cons]
    omega
  · simp [State.workLeft, hevents]
  · simp [State.workLeft, takeOldest_length (takeArbitrated_spec hc)]
  · simp [State.workLeft, hevents, hnone] at hpos
  · simp [State.workLeft, takeOldest_length (takeArbitrated_spec hc)]
  · simp [State.workLeft, takeOldest_length (takeArbitrated_spec hc)]
  · simp [State.workLeft, hevents]

/-- Nothing is left to do exactly in a quiescent state. -/
theorem State.workLeft_eq_zero_iff (s : State) : s.workLeft = 0 ↔ s.quiescent = true := by
  simp [State.workLeft, State.quiescent_iff]

/-- A quiescent state stays quiescent. -/
theorem step_quiescent {s t : State} (h : step s = .next t) (hs : s.quiescent = true) : t.quiescent = true := by
  obtain ⟨hevents, hnone⟩ := s.quiescent_iff.mp hs
  rw [step_of_idle hevents hnone] at h
  cases h
  exact hs

/-- A run of at least as many steps as there is work left ends at rest (R30, R88). -/
theorem runSteps_quiescent {k : Nat} {s t : State} (h : runSteps k s = .next t) (hk : s.workLeft ≤ k) :
    t.quiescent = true := by
  induction k generalizing s with
  | zero =>
    cases h
    exact (State.workLeft_eq_zero_iff _).mp (Nat.le_zero.mp hk)
  | succ k ih =>
    obtain ⟨u, hu, hrun⟩ := runSteps_succ_eq_next h
    refine ih hrun ?_
    by_cases hpos : 0 < s.workLeft
    · have := everyStepLeavesLessToDo s u hu hpos
      omega
    · have hs : s.quiescent = true := s.workLeft_eq_zero_iff.mp (Nat.eq_zero_of_not_pos hpos)
      rw [u.workLeft_eq_zero_iff.mpr (step_quiescent hu hs)]
      exact Nat.zero_le k

/-- No step adds an event. -/
theorem step_events_suffix {s t : State} (h : step s = .next t) : t.events <:+ s.events := by
  rcases step_cases h with ⟨_, _, hevents, rfl⟩ | ⟨_, _, hevents, -, rfl⟩ | ⟨_, hevents, -, rfl⟩ |
    ⟨_, _, _, _, hevents, -, rfl⟩ | ⟨_, _, hevents, -, rfl⟩ | ⟨_, _, hevents, -, rfl⟩ | ⟨hevents, -, rfl⟩ |
    ⟨_, _, _, hevents, -, -, rfl⟩ | ⟨_, _, _, hevents, -, -, rfl⟩ | ⟨_, hevents, -, rfl⟩
  all_goals simp [hevents]

/-- An event that is not among those of a state is not among those after a step. -/
theorem step_events_ne {e : Event} {s t : State} (h : step s = .next t) (hs : ∀ x ∈ s.events, x ≠ e) :
    ∀ x ∈ t.events, x ≠ e :=
  fun x hx => hs x ((step_events_suffix h).subset hx)

end Sys2Proof.Machine
end

-- The request port and what is in flight (R29, R87): a run without acceptance carries a difference in the port along, and
-- nothing else comes of it.
section
namespace Sys2Proof.Machine

/-- A step that is no acceptance does the same whatever the request port presents, up to the port itself. -/
theorem step_drivePort {s u : State} (v : Option Presented) (h : step s = .next u)
    (hacc : ∀ x ∈ s.events, x ≠ .accept) : ∃ w, step (s.drivePort v) = .next (u.drivePort w) := by
  rcases step_cases h with ⟨v', rest, hevents, rfl⟩ | ⟨p, rest, hevents, -, -⟩ | ⟨rest, hevents, -, -⟩ |
    ⟨_, _, _, _, hevents, hc, rfl⟩ | ⟨_, _, hevents, hnone, rfl⟩ | ⟨_, _, hevents, hc, rfl⟩ | ⟨hevents, hnone, rfl⟩ |
    ⟨_, _, _, hevents, hc, hfate, rfl⟩ | ⟨_, _, _, hevents, hc, hfate, rfl⟩ | ⟨_, hevents, hnone, rfl⟩
  · exact ⟨v', step_of_drive (s := s.drivePort v) hevents⟩
  · simp [hevents] at hacc
  · simp [hevents] at hacc
  · exact ⟨v, step_of_serve_some (s := s.drivePort v) hevents hc⟩
  · exact ⟨v, step_of_serve_none (s := s.drivePort v) hevents hnone⟩
  · exact ⟨v, step_of_drain_some (s := s.drivePort v) hevents hc⟩
  · exact ⟨v, step_of_idle (s := s.drivePort v) hevents hnone⟩
  · exact ⟨v, step_of_reset_completed (s := s.drivePort v) hevents hc hfate⟩
  · exact ⟨v, step_of_reset_dropped (s := s.drivePort v) hevents hc hfate⟩
  · exact ⟨v, step_of_reset_none (s := s.drivePort v) hevents hnone⟩

/-- A run without acceptance does the same whatever the request port presents, up to the port itself. -/
theorem runSteps_drivePort {k : Nat} {s t : State} (v : Option Presented) (h : runSteps k s = .next t)
    (hacc : ∀ x ∈ s.events, x ≠ .accept) : ∃ w, runSteps k (s.drivePort v) = .next (t.drivePort w) := by
  induction k generalizing s v with
  | zero =>
    cases h
    exact ⟨v, rfl⟩
  | succ k ih =>
    obtain ⟨u, hu, hrun⟩ := runSteps_succ_eq_next h
    obtain ⟨w, hw⟩ := step_drivePort v hu hacc
    rw [runSteps_succ k hw]
    exact ih w hrun (step_events_ne hu hacc)

/-- Settles O30: the two runs end in states that differ in the request port only. -/
theorem portChangesAfterAcceptanceHaveNoEffect : Obligations.PortChangesAfterAcceptanceHaveNoEffect := by
  intro k s t t' v hacc hrun hrun'
  obtain ⟨w, hw⟩ := runSteps_drivePort v hrun hacc
  cases hw.symm.trans hrun'
  exact ⟨rfl, rfl, rfl⟩

end Sys2Proof.Machine
end

-- Every requester's responses (R30, R34): what it has received, what it has coming, and what is still to be accepted from it.
section
namespace Sys2Proof.Machine

@[simp] theorem answersTo_nil (q : RequesterId) : answersTo q [] = [] := rfl

@[simp] theorem answersTo_append (q : RequesterId) (l l' : List Captured) :
    answersTo q (l ++ l') = answersTo q l ++ answersTo q l' := by
  simp [answersTo]

/-- The answers to a requester are those to its own requests: two lists that hold the same requests of it answer it the same. -/
theorem answersTo_congr {q : RequesterId} {l l' : List Captured}
    (h : l.filter (·.requester = q) = l'.filter (·.requester = q)) : answersTo q l = answersTo q l' := by
  rw [answersTo, answersTo, h]

@[simp] theorem responsesTo_nil (q : RequesterId) : responsesTo q [] = [] := rfl

@[simp] theorem responsesTo_append (q : RequesterId) (l l' : List Delivery) :
    responsesTo q (l ++ l') = responsesTo q l ++ responsesTo q l' := by
  simp [responsesTo]

/-- The delivery of an answer reaches the requester that issued the request, and no other. -/
theorem responsesTo_delivery (q : RequesterId) (c : Captured) :
    responsesTo q [c.delivery] = if c.requester = q then [c.answer] else [] := by
  by_cases hq : c.requester = q <;> simp [responsesTo, Captured.delivery, hq]

/-- The request taken out of flight, if it is delivered, moves from what its requester has coming to what it has received. -/
theorem takeOldest_responsesTo {q q' : RequesterId} {l others : List Captured} {c : Captured}
    (h : takeOldest q l = some (c, others)) :
    responsesTo q' [c.delivery] ++ answersTo q' others = answersTo q' l := by
  rw [takeOldest_answersTo h, responsesTo_delivery]

/-- What a step does to the transactions: it delivers nothing and takes nothing out of flight, or it delivers the answer to some
requester's oldest request, or, as a part of a reset, it drops such a request. Only a step of the first kind accepts. -/
theorem step_transaction {s t : State} (h : step s = .next t) :
    (t.log = s.log ∧ t.inflight = s.inflight ++ s.acceptsNow) ∨
    (s.acceptsNow = [] ∧ ∃ c, takeOldest c.requester s.inflight = some (c, t.inflight) ∧
      (t.log = s.log ++ [c.delivery] ∨ s.resetting = true ∧ t.log = s.log)) := by
  rcases step_cases h with ⟨_, _, hevents, rfl⟩ | ⟨_, _, hevents, hport, rfl⟩ | ⟨_, hevents, hport, rfl⟩ |
    ⟨_, _, c, _, hevents, hc, rfl⟩ | ⟨_, _, hevents, -, rfl⟩ | ⟨c, _, hevents, hc, rfl⟩ | ⟨hevents, -, rfl⟩ |
    ⟨_, c, _, hevents, hc, -, rfl⟩ | ⟨_, c, _, hevents, hc, -, rfl⟩ | ⟨_, hevents, -, rfl⟩
  · exact .inl (by simp [State.acceptsNow, hevents])
  · exact .inl (by simp [State.acceptsNow, hevents, hport])
  · exact .inl (by simp [State.acceptsNow, hevents, hport])
  · obtain ⟨rfl, -⟩ := takeOldest_spec hc
    exact .inr ⟨by simp [State.acceptsNow, hevents], c, hc, .inl rfl⟩
  · exact .inl (by simp [State.acceptsNow, hevents])
  · exact .inr ⟨by simp [State.acceptsNow, hevents], c, takeArbitrated_spec hc, .inl rfl⟩
  · exact .inl (by simp [State.acceptsNow, hevents])
  · exact .inr ⟨by simp [State.acceptsNow, hevents], c, takeArbitrated_spec hc, .inl rfl⟩
  · exact .inr ⟨by simp [State.acceptsNow, hevents], c, takeArbitrated_spec hc,
      .inr ⟨by simp [State.resetting, hevents], rfl⟩⟩
  · exact .inl (by simp [State.acceptsNow, hevents])

/-- Settles O32: the step accepts a request into flight, or it moves an answer from flight to the log. -/
theorem stepConservesResponses : Obligations.StepConservesResponses := by
  intro s t q h hreset
  rcases step_transaction h with ⟨hlog, hinflight⟩ | ⟨haccepts, c, hc, hlog | ⟨hresetting, -⟩⟩
  · simp [State.owedTo, hlog, hinflight]
  · simp [State.owedTo, hlog, haccepts, takeOldest_responsesTo hc]
  · simp [hreset] at hresetting

/-- The requests to be accepted from here on are the one that this step accepts, if any, and those to be accepted after it. -/
theorem acceptsNow_append_acceptedBy {s t : State} (h : step s = .next t) :
    s.acceptsNow ++ acceptedBy t.events t.port = acceptedBy s.events s.port := by
  rcases step_cases h with ⟨_, _, hevents, rfl⟩ | ⟨_, _, hevents, hport, rfl⟩ | ⟨_, hevents, hport, rfl⟩ |
    ⟨_, _, _, _, hevents, -, rfl⟩ | ⟨_, _, hevents, -, rfl⟩ | ⟨_, _, hevents, -, rfl⟩ | ⟨hevents, -, rfl⟩ |
    ⟨_, _, _, hevents, -, -, rfl⟩ | ⟨_, _, _, hevents, -, -, rfl⟩ | ⟨_, hevents, -, rfl⟩
  all_goals simp [State.acceptsNow, acceptedBy, *]

/-- The responses that requester `q` is to get from here on, if no reset drops one: the answers to its requests in flight, then
those to its requests that are still to be accepted. -/
def State.dueTo (q : RequesterId) (s : State) : List Response :=
  s.owedTo q ++ answersTo q (acceptedBy s.events s.port)

/-- At rest nothing is due to anyone. -/
theorem State.dueTo_of_quiescent {s : State} (q : RequesterId) (h : s.quiescent = true) : s.dueTo q = [] := by
  obtain ⟨hevents, hinflight⟩ := s.quiescent_iff.mp h
  simp [State.dueTo, State.owedTo, acceptedBy, hevents, hinflight]

/-- A step that is no reset changes nothing of what a requester received and is to get, taken together. -/
theorem step_dueTo {s t : State} (q : RequesterId) (h : step s = .next t) (hreset : s.resetting = false) :
    responsesTo q t.log ++ t.dueTo q = responsesTo q s.log ++ s.dueTo q := by
  rw [State.dueTo, State.dueTo, ← List.append_assoc, stepConservesResponses s t q h hreset,
    ← acceptsNow_append_acceptedBy h, answersTo_append]
  simp only [List.append_assoc]

/-- Whatever the step, what it delivers to a requester and what is due to it afterwards were due to it before, in that order. -/
theorem step_dueTo_sublist {s t : State} (q : RequesterId) (h : step s = .next t) :
    ∃ new, responsesTo q t.log = responsesTo q s.log ++ new ∧ (new ++ t.dueTo q).Sublist (s.dueTo q) := by
  rw [State.dueTo, State.dueTo, ← acceptsNow_append_acceptedBy h]
  rcases step_transaction h with ⟨hlog, hinflight⟩ | ⟨haccepts, c, hc, hlog | ⟨-, hlog⟩⟩
  · exact ⟨[], by simp [hlog], by simp [State.owedTo, hinflight]⟩
  · refine ⟨responsesTo q [c.delivery], by simp [hlog], ?_⟩
    simp [State.owedTo, haccepts, ← takeOldest_responsesTo hc]
  · refine ⟨[], by simp [hlog], ?_⟩
    simp [State.owedTo, haccepts, ← takeOldest_responsesTo hc]

/-- A state without reset among its events is not resetting. -/
theorem State.resetting_eq_false {s : State} (h : ∀ x ∈ s.events, x ≠ .reset) : s.resetting = false := by
  unfold State.resetting
  split
  case h_1 hevents => simp [hevents] at h
  case h_2 => rfl

/-- Along a run without reset, what a requester received and is to get, taken together, stays the same. -/
theorem runSteps_dueTo {k : Nat} {s t : State} (q : RequesterId) (h : runSteps k s = .next t)
    (hreset : ∀ x ∈ s.events, x ≠ .reset) :
    responsesTo q t.log ++ t.dueTo q = responsesTo q s.log ++ s.dueTo q := by
  induction k generalizing s with
  | zero =>
    cases h
    rfl
  | succ k ih =>
    obtain ⟨u, hu, hrun⟩ := runSteps_succ_eq_next h
    rw [ih hrun (step_events_ne hu hreset), step_dueTo q hu (State.resetting_eq_false hreset)]

/-- Along any run, what a requester newly receives and what is due to it at the end were due to it at the start, in that order. -/
theorem runSteps_dueTo_sublist {k : Nat} {s t : State} (q : RequesterId) (h : runSteps k s = .next t) :
    ∃ new, responsesTo q t.log = responsesTo q s.log ++ new ∧ (new ++ t.dueTo q).Sublist (s.dueTo q) := by
  induction k generalizing s with
  | zero =>
    cases h
    exact ⟨[], by simp, List.Sublist.refl _⟩
  | succ k ih =>
    obtain ⟨u, hu, hrun⟩ := runSteps_succ_eq_next h
    obtain ⟨new, hnew, hnewdue⟩ := step_dueTo_sublist q hu
    obtain ⟨later, hlater, hlaterdue⟩ := ih hrun
    refine ⟨new ++ later, by rw [hlater, hnew, List.append_assoc], ?_⟩
    rw [List.append_assoc]
    exact (hlaterdue.append_left new).trans hnewdue

/-- After its bound of steps a state without reset has brought every requester all that was due to it. -/
theorem responsesTo_of_runSteps_workLeft {s t : State} (q : RequesterId) (hreset : ∀ x ∈ s.events, x ≠ .reset)
    (h : runSteps s.workLeft s = .next t) : responsesTo q t.log = responsesTo q s.log ++ s.dueTo q := by
  rw [← runSteps_dueTo q h hreset, State.dueTo_of_quiescent q (runSteps_quiescent h (Nat.le_refl _)), List.append_nil]

/-- Settles O33: the run ends at rest, where all that was due has been received. -/
theorem everyRequestIsAnsweredOnceInOrder : Obligations.EveryRequestIsAnsweredOnceInOrder := by
  intro s hreset
  obtain ⟨t, hrun⟩ := exists_runSteps s.workLeft s
  refine ⟨t, hrun, runSteps_quiescent hrun (Nat.le_refl _), fun q => ?_⟩
  rw [responsesTo_of_runSteps_workLeft q hreset hrun, State.dueTo, List.append_assoc]

/-- Settles O34: the run ends at rest, and what was received meanwhile is a subsequence of what was due. -/
theorem resetOnlyDropsResponses : Obligations.ResetOnlyDropsResponses := by
  intro s
  obtain ⟨t, hrun⟩ := exists_runSteps s.workLeft s
  have hrest : t.quiescent = true := runSteps_quiescent hrun (Nat.le_refl _)
  refine ⟨t, hrun, hrest, fun q => ?_⟩
  obtain ⟨new, hnew, hdue⟩ := runSteps_dueTo_sublist q hrun
  rw [State.dueTo_of_quiescent q hrest, List.append_nil] at hdue
  exact ⟨new, hnew, hdue⟩

/-- Settles O37: what a requester is due depends on its own requests alone, and each run brings it all of that. -/
theorem interleavingChangesNoResponse : Obligations.InterleavingChangesNoResponse := by
  intro s t t' as hreset hreset' haccepted hrun hrun' q
  rw [responsesTo_of_runSteps_workLeft q hreset hrun,
    responsesTo_of_runSteps_workLeft (s := { s with events := as }) q hreset' hrun', State.dueTo, State.dueTo,
    answersTo_congr (haccepted q)]
  rfl

end Sys2Proof.Machine
end

-- Every order of service between requesters (R34).
section
namespace Sys2Proof.Machine

/-- A requester with a request in flight has an oldest one. -/
theorem exists_takeOldest {q : RequesterId} {l : List Captured} (h : q ∈ l.map (·.requester)) :
    ∃ c others, takeOldest q l = some (c, others) := by
  cases hc : takeOldest q l with
  | none =>
    obtain ⟨x, hx, hq⟩ := List.mem_map.mp h
    exact absurd hq (takeOldest_eq_none_iff.mp hc x hx)
  | some p => exact ⟨p.1, p.2, rfl⟩

/-- The request taken out of flight and the others are all that was in flight. -/
theorem takeOldest_perm {q : RequesterId} {l others : List Captured} {c : Captured}
    (h : takeOldest q l = some (c, others)) : l.Perm (c :: others) := by
  obtain ⟨-, pre, post, rfl, rfl, -⟩ := takeOldest_spec h
  exact List.perm_middle

/-- Settles O36, by induction on the order of service: each service delivers the oldest answer of its requester. -/
theorem everyOrderOfServiceIsAdmitted : Obligations.EveryOrderOfServiceIsAdmitted := by
  intro s qs hevents hperm
  induction qs generalizing s with
  | nil =>
    have hnone : s.inflight = [] := List.map_eq_nil_iff.mp hperm.nil_eq.symm
    exact ⟨s, [], rfl, hnone, by simp, rfl, fun q => by simp [State.owedTo, hnone]⟩
  | cons q qs ih =>
    obtain ⟨c, others, hc⟩ := exists_takeOldest (hperm.subset List.mem_cons_self)
    obtain ⟨rfl, -⟩ := takeOldest_spec hc
    have hothers : qs.Perm (others.map (·.requester)) :=
      (hperm.trans ((takeOldest_perm hc).map _)).cons_inv
    obtain ⟨t, new, hrun, hrest, hlog, hnew, howed⟩ := ih { s with
      rsp := some c.answer, log := s.log ++ [c.delivery], events := qs.map .serve, inflight := others } rfl hothers
    refine ⟨t, c.delivery :: new, (runSteps_succ qs.length (step_of_serve_some hevents hc)).trans hrun, hrest,
      by rw [hlog, List.append_assoc]; rfl, by rw [List.map_cons, hnew]; rfl, fun q => ?_⟩
    rw [← List.singleton_append, responsesTo_append, howed]
    exact takeOldest_responsesTo hc

end Sys2Proof.Machine
end

-- The octets of a word and of a request (R38, R39), and decoding as the inverse of encoding (R42 to R44).
section
namespace Sys2Proof

/-- Bit j of octet k is bit 24 − 8k + j of the value (R38). -/
theorem getLsbD_octetOf (v : Word) (k : Nat) {j : Nat} (hj : j < 8) :
    (octetOf v k).getLsbD j = v.getLsbD (24 - 8 * k + j) := by
  simp [octetOf, hj]

/-- Octet k is a digit of the value in base 2^8 (R38). -/
theorem toNat_octetOf (v : Word) (k : Nat) : (octetOf v k).toNat = v.toNat / 2 ^ (24 - 8 * k) % 2 ^ 8 := by
  rw [octetOf, BitVec.extractLsb'_toNat, Nat.shiftRight_eq_div_pow]

/-- An octet appended to a value is added below it. -/
theorem toNat_append_octet {n : Nat} (x : BitVec n) (y : Octet) : (x ++ y).toNat = x.toNat * 2 ^ 8 + y.toNat := by
  rw [BitVec.toNat_append, ← Nat.shiftLeft_add_eq_or_of_lt y.isLt, Nat.shiftLeft_eq]

/-- The value of four octets is their weighted sum (R38). -/
theorem Octets.toNat_toWord (o : Octets) : o.toWord.toNat =
    o.o0.toNat * 2 ^ 24 + o.o1.toNat * 2 ^ 16 + o.o2.toNat * 2 ^ 8 + o.o3.toNat := by
  rw [Octets.toWord, toNat_append_octet, toNat_append_octet, toNat_append_octet]
  omega

/-- Taking a word of four octets apart gives the octets back: they are the digits of their weighted sum (R38). -/
theorem Octets.ofWord_toWord (o : Octets) : Octets.ofWord o.toWord = o := by
  obtain ⟨o0, o1, o2, o3⟩ := o
  rw [Octets.ofWord, Octets.mk.injEq]
  refine ⟨?_, ?_, ?_, ?_⟩ <;>
  · rw [← BitVec.toNat_inj]
    simp only [toNat_octetOf, Octets.toNat_toWord]
    omega

/-- Putting the octets of a word together gives the word back: it is the weighted sum of its digits (R38). -/
theorem Octets.toWord_ofWord (v : Word) : (Octets.ofWord v).toWord = v := by
  rw [← BitVec.toNat_inj, Octets.toNat_toWord]
  simp only [Octets.ofWord, toNat_octetOf]
  omega

/-- Settles O1. -/
theorem octetKOccupiesItsEightBits : Obligations.OctetKOccupiesItsEightBits :=
  ⟨fun v k _ _ hj => getLsbD_octetOf v k hj, Octets.toNat_toWord, Octets.ofWord_toWord, Octets.toWord_ofWord⟩

/-- A field of a field is a field of the whole. -/
theorem extractLsb'_extractLsb' {n : Nat} (w : BitVec n) (start start' : Nat) {len len' : Nat} (h : start + len ≤ len') :
    (w.extractLsb' start' len').extractLsb' start len = w.extractLsb' (start' + start) len := by
  refine BitVec.eq_of_getLsbD_eq fun i hi => ?_
  simp only [BitVec.getLsbD_extractLsb', hi, show start + i < len' by omega, decide_true, Bool.true_and, Nat.add_assoc]

/-- Octet k of A is REQ[63−8k : 56−8k] (R39). -/
theorem octetOf_extractLsb'_high (w : Req) {k : Nat} (hk : k < 4) :
    octetOf (w.extractLsb' 32 32) k = w.extractLsb' (56 - 8 * k) 8 := by
  rw [octetOf, extractLsb'_extractLsb' w _ _ (by omega), show 32 + (24 - 8 * k) = 56 - 8 * k by omega]

/-- Octet k of B is REQ[31−8k : 24−8k] (R39). -/
theorem octetOf_extractLsb'_low (w : Req) (k : Nat) :
    octetOf (w.extractLsb' 0 32) k = w.extractLsb' (24 - 8 * k) 8 := by
  rw [octetOf, BitVec.extractLsb'_extractLsb'_of_le (by omega)]

/-- Encoding what a word decodes to gives the word back: A and B are its two halves (R39). -/
@[simp] theorem encodeReq_decodeReq (w : Req) : encodeReq (decodeReq w) = w :=
  BitVec.extractLsb'_append_extractLsb' (w := 32) (len := 32)

/-- No two words decode alike (R39). -/
theorem decodeReq_injective : Function.Injective decodeReq :=
  Function.LeftInverse.injective encodeReq_decodeReq

/-- Settles O2: the operands are the two halves of the word. -/
theorem requestWordIsTheTwoOperands : Obligations.RequestWordIsTheTwoOperands := by
  refine ⟨fun w => ⟨w.extractLsb' 32 32, w.extractLsb' 0 32, rfl, fun i hi => ?_, fun k hk => ?_⟩, decodeReq_injective⟩
  · simp [hi]
  · exact ⟨octetOf_extractLsb'_high w hk, octetOf_extractLsb'_low w k⟩

/-- Decoding the octets of an instruction gives the instruction back (R38, R39). -/
@[simp] theorem decodeOctets_encodeOctets (i : Instr) : decodeOctets (encodeOctets i) = .ok i := by
  cases i with
  | cidr a b =>
    calc decodeOctets (encodeOctets (.cidr a b))
        = .ok (.cidr (Octets.ofWord a).toWord (Octets.ofWord b).toWord) := rfl
      _ = .ok (.cidr a b) := by rw [Octets.toWord_ofWord, Octets.toWord_ofWord]

/-- The octets of the instruction that a word decodes to are the octets of the word (R39). -/
@[simp] theorem encodeOctets_decodeReq (w : Req) : encodeOctets (decodeReq w) = octetsOfReq w := by
  simp (disch := decide) only [decodeReq, encodeOctets, octetOf_extractLsb'_high, octetOf_extractLsb'_low]
  rfl

/-- A word and its octets decode alike (R39). -/
@[simp] theorem decodeOctets_octetsOfReq (w : Req) : decodeOctets (octetsOfReq w) = .ok (decodeReq w) := by
  rw [← encodeOctets_decodeReq, decodeOctets_encodeOctets]

/-- In the opcode table's numbering, what decodes to an instruction is the instruction's own word, and nothing else (R44). -/
theorem decodeTableWord_eq_some_iff {nbits w : Nat} {i : Instr} :
    decodeTableWord nbits w = some i ↔ nbits = 64 ∧ w < 2 ^ 64 ∧ (encodeReq i).toNat = w := by
  rw [← reqOfTableWord_eq_some_iff, decodeTableWord]
  cases reqOfTableWord nbits w with
  | none => simp
  | some r =>
    simp only [decodeOctets_octetsOfReq, Option.some.injEq]
    constructor
    · rintro rfl
      exact (encodeReq_decodeReq r).symm
    · rintro rfl
      exact decodeReq_encodeReq i

/-- The word of an instruction, as a number of 64 bits, decodes to the instruction. -/
theorem decodeTableWord_encodeReq (i : Instr) : decodeTableWord 64 (encodeReq i).toNat = some i :=
  decodeTableWord_eq_some_iff.mpr ⟨rfl, (encodeReq i).isLt, rfl⟩

/-- Settles O3: each of the encodings is a two-sided inverse of its decoding. -/
theorem decodeAndEncodeAgree : Obligations.DecodeAndEncodeAgree :=
  ⟨fun i _ => ⟨decodeReq_encodeReq i, decodeOctets_encodeOctets i, decodeTableWord_encodeReq i⟩,
    fun w => ⟨rfl, encodeReq_decodeReq w, decodeOctets_octetsOfReq w, encodeOctets_decodeReq w⟩⟩

/-- In the opcode table's numbering, exactly the numbers of 64 bits decode to an instruction (R44). -/
theorem exists_decodeTableWord_iff {nbits w : Nat} : (∃ i, decodeTableWord nbits w = some i) ↔ nbits = 64 ∧ w < 2 ^ 64 := by
  constructor
  · rintro ⟨i, hi⟩
    obtain ⟨hbits, hw, -⟩ := decodeTableWord_eq_some_iff.mp hi
    exact ⟨hbits, hw⟩
  · rintro ⟨rfl, hw⟩
    refine ⟨decodeReq (BitVec.ofNat 64 w), decodeTableWord_eq_some_iff.mpr ⟨rfl, hw, ?_⟩⟩
    rw [encodeReq_decodeReq, BitVec.toNat_ofNat, Nat.mod_eq_of_lt hw]

/-- What does not decode in the opcode table's numbering is no request word (R44). -/
theorem reqOfTableWord_of_decodeTableWord_eq_none {nbits w : Nat} (h : decodeTableWord nbits w = none) :
    reqOfTableWord nbits w = none := by
  cases hr : reqOfTableWord nbits w with
  | none => rfl
  | some r => simp [decodeTableWord, hr] at h

/-- Settles O45. -/
theorem onlySixtyFourBitsAreATableRequest : Obligations.OnlySixtyFourBitsAreATableRequest := by
  intro nbits w s
  refine ⟨exists_decodeTableWord_iff, fun hnone => ?_, fun i hi => ?_⟩
  · exact Machine.State.withFetchWord_of_none (reqOfTableWord_of_decodeTableWord_eq_none hnone)
  · obtain ⟨-, -, hword⟩ := decodeTableWord_eq_some_iff.mp hi
    exact hword

/-- Settles O5, by running the decoder on the four fixed words. -/
theorem writtenWordsDecode : Obligations.WrittenWordsDecode := by
  unfold Obligations.WrittenWordsDecode
  decide

end Sys2Proof
end

-- The constant bits and the ranges of a response's fields (R40).
section
namespace Sys2Proof.Machine

/-- What a contiguous mask is: the bit above a 1 is a 1 (R13, R51). -/
theorem maskWf_iff {m : Word} : maskWf m = true ↔ ∀ i, i < 31 → m.getLsbD i = true → m.getLsbD (i + 1) = true := by
  simp [maskWf, imp_iff_not_or]

/-- MASK is contiguous: a bit from 32 − PLEN up has only such bits above it (R51). -/
theorem maskWf_computePrefix_mask (a b : Word) : maskWf (computePrefix a b).mask = true := by
  rw [maskWf_iff]
  intro i hi
  rw [getLsbD_computePrefix_mask a b (Nat.lt_succ_of_lt hi), getLsbD_computePrefix_mask a b (Nat.succ_lt_succ hi),
    decide_eq_true_iff, decide_eq_true_iff]
  exact Nat.le_succ_of_le

/-- No bit of PLEN from bit 6 up is 1, since PLEN is at most 32 (R40). -/
theorem getLsbD_cidrResponse_plen (a b : Word) {i : Nat} (hi : 6 ≤ i) : (cidrResponse a b).plen.getLsbD i = false := by
  have hle := computePrefix_plen_le a b
  have hpow : 2 ^ 6 ≤ 2 ^ i := Nat.pow_le_pow_right (by decide) hi
  rw [← BitVec.testBit_toNat, toNat_cidrResponse_plen]
  exact Nat.testBit_lt_two_pow (by omega)

/-- No bit of NET below bit 32 − PLEN is 1 (R40). -/
theorem getLsbD_cidrResponse_net (a b : Word) {i : Nat} (hi : i < 32 - (computePrefix a b).plen) :
    (cidrResponse a b).net.getLsbD i = false := by
  rw [cidrResponse_net, BitVec.getLsbD_and, getLsbD_computePrefix_mask a b (by omega),
    decide_eq_false (Nat.not_le.mpr hi), Bool.and_false]

/-- COUNT has a single 1, at bit 32 − PLEN (R61). -/
theorem getLsbD_cidrResponse_count (a b : Word) (i : Nat) :
    (cidrResponse a b).count.getLsbD i = decide (32 - (computePrefix a b).plen = i) := by
  rw [← BitVec.testBit_toNat, toNat_cidrResponse_count, Nat.testBit_two_pow]

/-- COUNT is 1 to 2^32 (R40). -/
theorem cidrResponse_count_range (a b : Word) :
    1 ≤ (cidrResponse a b).count.toNat ∧ (cidrResponse a b).count.toNat ≤ 2 ^ 32 := by
  rw [toNat_cidrResponse_count]
  exact ⟨Nat.one_le_two_pow, Nat.pow_le_pow_right (by decide) (Nat.sub_le 32 _)⟩

/-- Settles O7, field by field. -/
theorem responseFieldsKeepTheirConstantBits : Obligations.ResponseFieldsKeepTheirConstantBits := by
  intro a b r
  have hplen : r.plen.toNat = (computePrefix a b).plen := toNat_cidrResponse_plen a b
  have hle := computePrefix_plen_le a b
  obtain ⟨hpos, hmax⟩ := cidrResponse_count_range a b
  refine ⟨maskWf_computePrefix_mask a b, hplen.trans_le hle, getLsbD_cidrResponse_plen a b (by decide),
    getLsbD_cidrResponse_plen a b (by decide), fun hlt i hi => ?_, hpos, hmax, fun i hi _ => ?_, ?_⟩
  · exact getLsbD_cidrResponse_net a b (by omega)
  · rw [getLsbD_cidrResponse_count, decide_eq_false (by omega)]
  · rw [getLsbD_cidrResponse_count, decide_eq_true_iff, hplen]
    omega

end Sys2Proof.Machine
end

-- Written requests (R45): what the reader of each part makes of what the printer of that part writes, whatever text follows.
section
namespace Sys2Proof.Machine

/-- The reader of a literal text takes exactly that text. -/
@[simp] theorem expectText_append (l cs : Text) : expectText l (l ++ cs) = some cs := by
  induction l with
  | nil => rfl
  | cons c l ih => simpa [expectText] using ih

/-- A printed decimal digit reads as its value. -/
theorem decimalDigit_digitChar {d : Nat} (hd : d < 10) : decimalDigit d.digitChar = some d := by
  rw [decimalDigit, Nat.toNat_digitChar_of_lt_ten hd, if_pos (by omega), Nat.add_sub_cancel_left]

/-- Reading on from a printed digit. -/
theorem readDigits_digitChar {d : Nat} (acc : Nat) (cs : Text) (hd : d < 10) :
    readDigits acc (d.digitChar :: cs) = readDigits (10 * acc + d) cs := by
  rw [readDigits, decimalDigit_digitChar hd]

/-- A number is printed digit by digit, from the highest: reading its text is reading on from its value. -/
theorem readDigits_decimalText (n : Nat) (cs : Text) : readDigits 0 (decimalText n ++ cs) = readDigits n cs := by
  induction n using Nat.strongRecOn generalizing cs with
  | ind n ih =>
    by_cases hn : n < 10
    · rw [decimalText, Nat.toDigits_of_lt_base hn, List.singleton_append, readDigits_digitChar 0 cs hn, Nat.mul_zero,
        Nat.zero_add]
    · have hsplit : decimalText n = decimalText (n / 10) ++ [(n % 10).digitChar] :=
        Nat.toDigits_of_base_le (by decide) (Nat.le_of_not_lt hn)
      rw [hsplit, List.append_assoc, List.singleton_append, ih (n / 10) (by omega),
        readDigits_digitChar _ cs (Nat.mod_lt n (by decide)), Nat.div_add_mod]

/-- A text that does not go on with a decimal digit. -/
def endsDigits (cs : Text) : Bool :=
  cs.head?.all fun c => (decimalDigit c).isNone

/-- The reader of digits stops where no digit follows. -/
theorem readDigits_of_endsDigits {cs : Text} (n : Nat) (h : endsDigits cs = true) : readDigits n cs = (n, cs) := by
  cases cs with
  | nil => rfl
  | cons c cs =>
    have hc : decimalDigit c = none := by simpa [endsDigits] using h
    rw [readDigits, hc]

/-- Where the first character is a digit, an octet is the run of digits, if its value is at most 255. -/
theorem readOctet_of_readDigits {c : Char} {cs rest : Text} {d n : Nat} (hc : decimalDigit c = some d)
    (hread : readDigits 0 (c :: cs) = (n, rest)) (hn : n ≤ 255) :
    readOctet (c :: cs) = some (BitVec.ofNat 8 n, rest) := by
  have hrest : readDigits d cs = (n, rest) := by simpa [readDigits, hc] using hread
  simp [readOctet, hc, hrest, hn]

/-- The text of a number begins with a digit. -/
theorem exists_decimalText_eq_cons (n : Nat) : ∃ c cs d, decimalText n = c :: cs ∧ decimalDigit c = some d := by
  induction n using Nat.strongRecOn with
  | ind n ih =>
    by_cases hn : n < 10
    · exact ⟨n.digitChar, [], n, Nat.toDigits_of_lt_base hn, decimalDigit_digitChar hn⟩
    · obtain ⟨c, cs, d, htext, hc⟩ := ih (n / 10) (by omega)
      refine ⟨c, cs ++ [(n % 10).digitChar], d, ?_, hc⟩
      rw [← List.cons_append, ← htext]
      exact Nat.toDigits_of_base_le (by decide) (Nat.le_of_not_lt hn)

/-- A printed octet reads back. -/
theorem readOctet_decimalText (o : Octet) {cs : Text} (hend : endsDigits cs = true) :
    readOctet (decimalText o.toNat ++ cs) = some (o, cs) := by
  have hread : readDigits 0 (decimalText o.toNat ++ cs) = (o.toNat, cs) := by
    rw [readDigits_decimalText, readDigits_of_endsDigits _ hend]
  obtain ⟨c, ds, d, htext, hc⟩ := exists_decimalText_eq_cons o.toNat
  rw [htext, List.cons_append] at hread ⊢
  rw [readOctet_of_readDigits hc hread (Nat.le_of_lt_succ o.isLt), BitVec.ofNat_toNat, BitVec.setWidth_eq]

/-- A printed dotted quad reads back, octet by octet. -/
theorem readDotted_dottedText (v : Word) {cs : Text} (hend : endsDigits cs = true) :
    readDotted (dottedText v ++ cs) = some (v, cs) := by
  have hdot (o : Octet) (ds : Text) : readOctet (decimalText o.toNat ++ '.' :: ds) = some (o, '.' :: ds) :=
    readOctet_decimalText o rfl
  simp only [readDotted, dottedText, List.append_assoc, List.cons_append, hdot, readOctet_decimalText _ hend, expectText,
    if_true, Option.bind_eq_bind, Option.bind_some]
  exact congrArg (fun w => some (w, cs)) (Octets.toWord_ofWord v)

/-- A printed hexadecimal digit reads as its value. -/
theorem hexDigitValue_hexDigit : ∀ {d : Nat}, d < 16 → hexDigitValue (hexDigit d) = some d := by
  decide

/-- Printed hexadecimal digits read back as their value in base 16. -/
theorem readHexDigits_map_hexDigit {ds : List Nat} (acc : Nat) (cs : Text) (hds : ∀ d ∈ ds, d < 16) :
    readHexDigits ds.length acc (ds.map hexDigit ++ cs) = some (ds.foldl (16 * · + ·) acc, cs) := by
  induction ds generalizing acc with
  | nil => rfl
  | cons d ds ih =>
    obtain ⟨hd, hds⟩ := List.forall_mem_cons.mp hds
    rw [List.length_cons, List.map_cons, List.cons_append, readHexDigits, hexDigitValue_hexDigit hd]
    exact ih _ hds

/-- The first `j` hexadecimal digits of a 32-bit value, the highest first. -/
def leadingHexDigits (v : Word) (j : Nat) : List Nat :=
  (List.range j).map fun k => (v.extractLsb' (28 - 4 * k) 4).toNat

theorem leadingHexDigits_succ (v : Word) (j : Nat) :
    leadingHexDigits v (j + 1) = leadingHexDigits v j ++ [(v.extractLsb' (28 - 4 * j) 4).toNat] := by
  simp [leadingHexDigits, List.range_succ]

theorem lt_of_mem_leadingHexDigits {v : Word} {j : Nat} : ∀ d ∈ leadingHexDigits v j, d < 16 := by
  intro d hd
  obtain ⟨k, -, rfl⟩ := List.mem_map.mp hd
  exact (v.extractLsb' (28 - 4 * k) 4).isLt

/-- A hexadecimal text is `0x` and all eight digits (R45). -/
theorem hexText_eq (v : Word) : hexText v = ['0', 'x'] ++ (leadingHexDigits v 8).map hexDigit := by
  simp [hexText, leadingHexDigits]

/-- The first `j` digits in base 16 are the value without its other digits. -/
theorem foldl_leadingHexDigits (v : Word) {j : Nat} (hj : j ≤ 8) :
    (leadingHexDigits v j).foldl (16 * · + ·) 0 = v.toNat / 2 ^ (32 - 4 * j) := by
  induction j with
  | zero => exact (Nat.div_eq_of_lt v.isLt).symm
  | succ j ih =>
    rw [leadingHexDigits_succ, List.foldl_concat, ih (Nat.le_of_succ_le hj), BitVec.extractLsb'_toNat,
      Nat.shiftRight_eq_div_pow, show 32 - 4 * j = 28 - 4 * j + 4 by omega, show 32 - 4 * (j + 1) = 28 - 4 * j by omega,
      Nat.pow_add, ← Nat.div_div_eq_div_mul]
    exact Nat.div_add_mod _ 16

/-- A printed hexadecimal value reads back. -/
theorem readHex_hexText (v : Word) (cs : Text) : readHex (hexText v ++ cs) = some (v, cs) := by
  have hvalue : (leadingHexDigits v 8).foldl (16 * · + ·) 0 = v.toNat :=
    (foldl_leadingHexDigits v (Nat.le_refl 8)).trans (Nat.div_one _)
  have hdigits : readHexDigits 8 0 ((leadingHexDigits v 8).map hexDigit ++ cs) = some (v.toNat, cs) := by
    rw [← hvalue]
    exact readHexDigits_map_hexDigit (ds := leadingHexDigits v 8) 0 cs lt_of_mem_leadingHexDigits
  rw [readHex, hexText_eq, List.append_assoc, expectText_append]
  simp [hdigits]

/-- No hexadecimal operand is a dotted quad: an `x` follows its first digit. -/
theorem readDotted_hexText (v : Word) (cs : Text) : readDotted (hexText v ++ cs) = none := rfl

/-- Two operands read back in the form in which each of them does. -/
theorem readOperands_of_reads {operand : Text → Option (Word × Text)} {text : Word → Text}
    (hreads : ∀ (v : Word) (cs : Text), endsDigits cs = true → operand (text v ++ cs) = some (v, cs)) (a b : Word) :
    readOperands operand (text a ++ ',' :: ' ' :: text b) = some (.cidr a b) := by
  have ha := hreads a (',' :: ' ' :: text b) rfl
  have hb : operand (text b) = some (b, []) := by simpa using hreads b [] rfl
  simp [readOperands, ha, hb, expectText]

/-- Settles O6: each form's reader takes what its printer writes, and the dotted-quad reader takes no hexadecimal text. -/
theorem writtenRequestsReadBack : Obligations.WrittenRequestsReadBack := by
  rintro ⟨a, b⟩
  have hdotted := readOperands_of_reads (fun v _ => readDotted_dottedText v) a b
  have hhex := readOperands_of_reads (fun v cs _ => readHex_hexText v cs) a b
  have hnone : readOperands readDotted (hexText a ++ ',' :: ' ' :: hexText b) = none := by
    rw [readOperands, readDotted_hexText]
    rfl
  constructor
  · simp [readRequest, dottedRequestText, hdotted]
  · simp [readRequest, hexRequestText, hnone, hhex]

end Sys2Proof.Machine
end

-- The comparator (R47): E bit by bit.
section
namespace Sys2Proof.Machine

/-- A bit of E is 1 exactly where A and B agree (R47). -/
theorem getLsbD_equalBits_iff (a b : Word) {i : Nat} (hi : i < 32) :
    (equalBits a b).getLsbD i = true ↔ a.getLsbD i = b.getLsbD i := by
  rw [getLsbD_equalBits a b hi, decide_eq_true_iff]

/-- Equal operands agree on every bit (R47). -/
theorem equalBits_self (a : Word) : equalBits a a = 0xFFFFFFFF := by
  rw [equalBits, BitVec.xor_self]
  rfl

/-- Complementary operands agree on no bit (R47). -/
theorem equalBits_not (a : Word) : equalBits a (~~~a) = 0 := by
  refine BitVec.eq_of_getLsbD_eq fun i hi => ?_
  rw [getLsbD_equalBits a _ hi]
  simp [hi]

/-- Settles O8. -/
theorem comparatorMarksTheEqualBits : Obligations.ComparatorMarksTheEqualBits :=
  ⟨fun a b _ hi => getLsbD_equalBits_iff a b hi, equalBits_self, equalBits_not,
    fun a b => congrArg (~~~ ·) (BitVec.xor_comm a b), rfl⟩

end Sys2Proof.Machine
end

-- PLEN of operands whose first mismatch is known (R52), and what PLEN says of MASK (R53).
section
namespace Sys2Proof.Machine

/-- A leading run is m bits long when the top m bits equal p and the next one, if there is one, does not. -/
theorem leadingRun_eq_of_stop {p : Bool} {v : Word} {n m : Nat} (hm : m ≤ n)
    (hrun : ∀ i, n - m ≤ i → i < n → v.getLsbD i = p) (hstop : m < n → v.getLsbD (n - 1 - m) ≠ p) :
    leadingRun p v n = m := by
  have hge : m ≤ leadingRun p v n := (le_leadingRun_iff hm).mpr hrun
  have hn := leadingRun_le p v n
  by_contra hne
  exact hstop (by omega) (leadingRun_bit (n := n) (by omega) (by omega))

/-- The first mismatch of A and B, scanning from bit 31 down, fixes PLEN (R52). -/
theorem computePrefix_plen_of_first_mismatch {a b : Word} {m : Nat} (hm : m < 32)
    (hdiff : a.getLsbD m ≠ b.getLsbD m) (habove : ∀ i, m < i → i < 32 → a.getLsbD i = b.getLsbD i) :
    (computePrefix a b).plen = 31 - m := by
  rw [computePrefix_plen]
  refine leadingRun_eq_of_stop (by omega) (fun i hlo hi => ?_) (fun _ => ?_)
  · exact (getLsbD_equalBits_iff a b hi).mpr (habove i (by omega) hi)
  · rw [show 32 - 1 - (31 - m) = m by omega]
    exact mt (getLsbD_equalBits_iff a b hm).mp hdiff

/-- A mismatch at bit 31 ends the scan before it sets a bit (R52). -/
theorem computePrefix_plen_of_mismatch_at_top {a b : Word} (hdiff : a.getLsbD 31 ≠ b.getLsbD 31) :
    (computePrefix a b).plen = 0 :=
  computePrefix_plen_of_first_mismatch (by decide) hdiff (by omega)

/-- Operands that differ in bit m alone have their first mismatch there (R52). -/
theorem computePrefix_xor_twoPow_plen (a : Word) {m : Nat} (hm : m < 32) :
    (computePrefix a (a ^^^ BitVec.twoPow 32 m)).plen = 31 - m := by
  refine computePrefix_plen_of_first_mismatch hm ?_ fun i hlo _ => ?_
  · simp [hm]
  · simp [show m ≠ i by omega]

/-- Operands that differ in bit 0 alone (R52). -/
theorem computePrefix_xor_one_plen (a : Word) : (computePrefix a (a ^^^ 1)).plen = 31 :=
  computePrefix_xor_twoPow_plen a (m := 0) (by decide)

/-- Equal operands have no mismatch (R52). -/
theorem computePrefix_self_plen (a : Word) : (computePrefix a a).plen = 32 :=
  Nat.le_antisymm (computePrefix_plen_le a a) ((le_computePrefix_plen_iff (Nat.le_refl 32)).mpr fun _ _ _ => rfl)

/-- PLEN determines MASK (R53). -/
theorem computePrefix_mask_of_plen {a b : Word} {p : Nat} (hp : (computePrefix a b).plen = p) :
    (computePrefix a b).mask = BitVec.ofNat 32 (2 ^ 32 - 2 ^ (32 - p)) := by
  rw [← hp, ← toNat_computePrefix_mask, BitVec.ofNat_toNat, BitVec.setWidth_eq]

/-- Equal operands have all bits in common: R55's first property. -/
theorem computePrefix_self (a : Word) : computePrefix a a = ⟨0xFFFFFFFF, 32⟩ :=
  (PrefixScan.mk.injEq ..).mpr ⟨computePrefix_mask_of_plen (computePrefix_self_plen a), computePrefix_self_plen a⟩

/-- Operands that differ at bit 31 have no bit in common: R55's second property. -/
theorem computePrefix_of_mismatch_at_top {a b : Word} (hdiff : a.getLsbD 31 ≠ b.getLsbD 31) :
    computePrefix a b = ⟨0, 0⟩ :=
  have hplen := computePrefix_plen_of_mismatch_at_top hdiff
  (PrefixScan.mk.injEq ..).mpr ⟨computePrefix_mask_of_plen hplen, hplen⟩

/-- Multiplying 2^32 − 1 by x leaves 2^32 − x modulo 2^32: the shift form of MASK (R53). -/
theorem allOnes_mul_mod {x : Nat} (hpos : 0 < x) (hx : x ≤ 2 ^ 32) : 0xFFFFFFFF * x % 2 ^ 32 = 2 ^ 32 - x := by
  omega

/-- Settles O13. -/
theorem maskFollowsFromPrefixLength : Obligations.MaskFollowsFromPrefixLength := by
  intro a b
  refine ⟨toNat_computePrefix_mask a b, computePrefix_mask_of_plen, computePrefix_mask_of_plen, fun _ _ => ?_⟩
  rw [toNat_computePrefix_mask, allOnes_mul_mod (Nat.two_pow_pos _)]
  exact Nat.pow_le_pow_right (by decide) (Nat.sub_le 32 _)

end Sys2Proof.Machine
end

-- MASK bit by bit (R49 to R51, R55).
section
namespace Sys2Proof.Machine

/-- A bit of MASK is 1 exactly from bit 32 − PLEN up (R51). -/
theorem getLsbD_computePrefix_mask_iff (a b : Word) {i : Nat} (hi : i < 32) :
    (computePrefix a b).mask.getLsbD i = true ↔ 32 - (computePrefix a b).plen ≤ i := by
  rw [getLsbD_computePrefix_mask a b hi, decide_eq_true_iff]

/-- A bit of MASK is the AND of the bits of E from it up (R49). -/
theorem getLsbD_computePrefix_mask_iff_forall (a b : Word) {i : Nat} (hi : i < 32) :
    (computePrefix a b).mask.getLsbD i = true ↔ ∀ j, i ≤ j → j < 32 → (equalBits a b).getLsbD j = true := by
  have hrun := le_leadingRun_iff (p := true) (v := equalBits a b) (Nat.sub_le 32 i)
  rw [Nat.sub_sub_self (Nat.le_of_lt hi)] at hrun
  rw [getLsbD_computePrefix_mask_iff a b hi, ← hrun, computePrefix_plen]
  omega

/-- From a mismatch down no bit of MASK is 1 (R50). -/
theorem getLsbD_computePrefix_mask_of_mismatch {a b : Word} {m i : Nat} (hm : m < 32)
    (hdiff : a.getLsbD m ≠ b.getLsbD m) (hi : i ≤ m) : (computePrefix a b).mask.getLsbD i = false := by
  rw [← Bool.not_eq_true, getLsbD_computePrefix_mask_iff_forall a b (by omega)]
  exact fun hall => hdiff ((getLsbD_equalBits_iff a b hm).mp (hall m hi hm))

/-- A bit of MASK below a 0 of MASK is 0: R55's third property. -/
theorem getLsbD_computePrefix_mask_below_zero {a b : Word} {i j : Nat} (hj : j < i) (hi : i < 32)
    (hzero : (computePrefix a b).mask.getLsbD i = false) : (computePrefix a b).mask.getLsbD j = false := by
  rw [getLsbD_computePrefix_mask a b hi, decide_eq_false_iff_not] at hzero
  rw [getLsbD_computePrefix_mask a b (by omega), decide_eq_false_iff_not]
  omega

/-- MASK is E exactly when E, too, has no 1 below a 0 (R50). -/
theorem computePrefix_mask_eq_equalBits_iff {a b : Word} : (computePrefix a b).mask = equalBits a b ↔
    ∀ i j, j < i → i < 32 → (equalBits a b).getLsbD i = false → (equalBits a b).getLsbD j = false := by
  constructor
  · intro heq i j hj hi
    rw [← heq]
    exact getLsbD_computePrefix_mask_below_zero hj hi
  · intro hbelow
    refine BitVec.eq_of_getLsbD_eq fun i hi => Bool.eq_iff_iff.mpr ?_
    rw [getLsbD_computePrefix_mask_iff_forall a b hi]
    refine ⟨fun hall => hall i (Nat.le_refl i) hi, fun hone j hij hj => ?_⟩
    obtain rfl | hlt := Nat.eq_or_lt_of_le hij
    · exact hone
    · by_contra hzero
      have hbit := hbelow j i hlt hj (Bool.eq_false_of_not_eq_true hzero)
      exact Bool.noConfusion (hone.symm.trans hbit)

/-- Settles O9. -/
theorem maskBitIsTheAndOfTheBitsAbove : Obligations.MaskBitIsTheAndOfTheBitsAbove :=
  ⟨fun a b _ hi => ⟨getLsbD_computePrefix_mask_iff_forall a b hi, getLsbD_computePrefix_mask_iff a b hi⟩,
    computePrefix_plen_le, fun a => congrArg PrefixScan.mask (computePrefix_self a),
    fun _ _ hdiff => congrArg PrefixScan.mask (computePrefix_of_mismatch_at_top hdiff),
    fun a => computePrefix_mask_of_plen (computePrefix_xor_one_plen a), by decide⟩

/-- Settles O10. -/
theorem noMaskBitFromAMismatchDown : Obligations.NoMaskBitFromAMismatchDown :=
  ⟨fun _ _ _ _ => getLsbD_computePrefix_mask_of_mismatch, fun _ _ => computePrefix_mask_eq_equalBits_iff⟩

/-- Settles O11. -/
theorem maskIsALeadingRunOfOnes : Obligations.MaskIsALeadingRunOfOnes := by
  intro a b
  refine ⟨fun i hi => (getLsbD_computePrefix_mask_iff a b hi).mpr, fun i hi => ?_, maskWf_computePrefix_mask a b⟩
  rw [getLsbD_computePrefix_mask a b (by omega), decide_eq_false (Nat.not_le.mpr hi)]

/-- Settles O14: the top bit of octet 0 is bit 31 of the address (R38). -/
theorem computePrefixKeepsTheSourcesProperties : Obligations.ComputePrefixKeepsTheSourcesProperties := by
  refine ⟨computePrefix_self, fun a b hdiff => ?_, fun _ _ _ _ => getLsbD_computePrefix_mask_below_zero⟩
  rw [getLsbD_octetOf a 0 (by decide), getLsbD_octetOf b 0 (by decide)] at hdiff
  exact computePrefix_of_mismatch_at_top hdiff

end Sys2Proof.Machine
end

-- The closed forms of PLEN (R52).
section
namespace Sys2Proof.Machine

/-- MASK has PLEN 1s: none among the low 32 − PLEN bits, and the PLEN bits above them all (R52). -/
theorem popcount32_computePrefix_mask (a b : Word) :
    popcount32 (computePrefix a b).mask = (computePrefix a b).plen := by
  have hle := computePrefix_plen_le a b
  have hsplit : List.range 32 = List.range (32 - (computePrefix a b).plen) ++
      (List.range (computePrefix a b).plen).map (32 - (computePrefix a b).plen + ·) := by
    rw [← List.range_add, Nat.sub_add_cancel hle]
  rw [popcount32, hsplit, List.countP_append, List.countP_map, List.countP_eq_zero.mpr fun i hi => ?low,
    List.countP_eq_length.mpr fun i hi => ?high, List.length_range, Nat.zero_add]
  case low =>
    rw [List.mem_range] at hi
    rw [getLsbD_computePrefix_mask_iff a b (by omega)]
    omega
  case high =>
    rw [List.mem_range] at hi
    rw [Function.comp_apply, getLsbD_computePrefix_mask_iff a b (by omega)]
    omega

/-- MASK's leading run of 1s is PLEN bits long (R52). -/
theorem leadingOnes32_computePrefix_mask (a b : Word) :
    leadingOnes32 (computePrefix a b).mask = (computePrefix a b).plen := by
  refine leadingRun_eq_of_stop (computePrefix_plen_le a b) (fun i hlo hi => ?_) (fun hlt => ?_)
  · exact (getLsbD_computePrefix_mask_iff a b hi).mpr hlo
  · rw [Ne, getLsbD_computePrefix_mask_iff a b (by omega)]
    omega

/-- Leading runs are equally long where the same bits belong to them. -/
theorem leadingRun_congr {p q : Bool} {v w : Word} {n : Nat}
    (h : ∀ i, i < n → (v.getLsbD i = p ↔ w.getLsbD i = q)) : leadingRun p v n = leadingRun q w n := by
  induction n with
  | zero => rfl
  | succ n ih => simp only [leadingRun, h n (Nat.lt_succ_self n), ih fun i hi => h i (Nat.lt_succ_of_lt hi)]

/-- PLEN counts the leading 0s of the XOR, which is 0 where E is 1 (R52). -/
theorem clz32_xor (a b : Word) : clz32 (a ^^^ b) = (computePrefix a b).plen := by
  rw [computePrefix_plen]
  refine leadingRun_congr fun i hi => ?_
  rw [getLsbD_equalBits_iff a b hi, BitVec.getLsbD_xor, bne_eq_false_iff_eq]

/-- Settles O12. -/
theorem prefixLengthHasItsClosedForms : Obligations.PrefixLengthHasItsClosedForms := by
  refine ⟨fun a b => ⟨(popcount32_computePrefix_mask a b).symm, (leadingOnes32_computePrefix_mask a b).symm,
    (clz32_xor a b).symm, computePrefix_plen_le a b, toNat_cidrResponse_plen a b⟩, fun p hp => ?_,
    computePrefix_self_plen, fun _ _ => computePrefix_plen_of_mismatch_at_top, computePrefix_xor_one_plen,
    fun a b k hk habove hdiff => ?_, by decide⟩
  · have hplen := computePrefix_xor_twoPow_plen 0 (m := 31 - p) (by omega)
    rw [show (0 : Word) ^^^ BitVec.twoPow 32 (31 - p) = _ from BitVec.zero_xor] at hplen
    omega
  · have hplen := computePrefix_plen_of_first_mismatch (by omega) hdiff habove
    omega

end Sys2Proof.Machine
end

-- NET, derived octet-wise, as a word, and from either address (R56, R57).
section
namespace Sys2Proof

/-- An octet of an AND is the AND of the octets (R38, R56). -/
theorem octetOf_and (v w : Word) (k : Nat) : octetOf (v &&& w) k = octetOf v k &&& octetOf w k :=
  BitVec.extractLsb'_and

/-- The octet-wise AND is the AND of the words (R56). -/
theorem Octets.ofWord_and (v w : Word) : Octets.ofWord (v &&& w) = (Octets.ofWord v).land (Octets.ofWord w) := by
  simp only [Octets.ofWord, Octets.land, octetOf_and]

namespace Machine

/-- Settles O16. -/
theorem networkIsTheMaskedAddress : Obligations.NetworkIsTheMaskedAddress := by
  refine ⟨fun address mask => ⟨rfl, Octets.ofWord_and address mask⟩, cidrResponse_net, fun a b hplen => ?_,
    fun a b hplen => ?_, fun a b i => getLsbD_cidrResponse_net a b, by decide⟩
  · rw [cidrResponse_net, computePrefix_mask_of_plen hplen]
    exact BitVec.and_allOnes
  · rw [cidrResponse_net, computePrefix_mask_of_plen hplen]
    exact BitVec.and_zero

/-- A and B agree under MASK: where a bit of theirs differs, MASK has no 1 (R57). -/
theorem and_computePrefix_mask (a b : Word) : a &&& (computePrefix a b).mask = b &&& (computePrefix a b).mask := by
  refine BitVec.eq_of_getLsbD_eq fun i hi => ?_
  rw [BitVec.getLsbD_and, BitVec.getLsbD_and]
  by_cases hagree : a.getLsbD i = b.getLsbD i
  · rw [hagree]
  · rw [getLsbD_computePrefix_mask_of_mismatch hi hagree (Nat.le_refl i), Bool.and_false, Bool.and_false]

/-- Settles O17. -/
theorem networkIsTheSameFromEitherAddress : Obligations.NetworkIsTheSameFromEitherAddress :=
  fun a b => ⟨and_computePrefix_mask a b, rfl, and_computePrefix_mask a b⟩

end Machine
end Sys2Proof
end

-- COUNT, from PLEN and from MASK, and the bits of its field (R58 to R64).
section
namespace Sys2Proof.Machine

/-- The PLEN field determines the COUNT field (R58). -/
theorem cidrResponse_count_of_plen {a b : Word} {p : PlenField} (hp : (cidrResponse a b).plen = p) :
    (cidrResponse a b).count = BitVec.ofNat 64 (2 ^ (32 - p.toNat)) := by
  rw [← hp, toNat_cidrResponse_plen, ← toNat_cidrResponse_count, BitVec.ofNat_toNat, BitVec.setWidth_eq]

/-- The PLEN field is 0 exactly when no bit is common (R52). -/
theorem cidrResponse_plen_eq_zero_iff {a b : Word} : (cidrResponse a b).plen = 0 ↔ (computePrefix a b).plen = 0 := by
  rw [← toNat_cidrResponse_plen]
  exact BitVec.toNat_inj.symm

/-- Every PLEN from 0 to 32 occurs (R64). -/
theorem exists_computePrefix_plen {p : Nat} (hp : p ≤ 32) : ∃ a b : Word, (computePrefix a b).plen = p := by
  obtain rfl | hlt := Nat.eq_or_lt_of_le hp
  · exact ⟨0, 0, computePrefix_self_plen 0⟩
  · have hplen := computePrefix_xor_twoPow_plen 0 (m := 31 - p) (by omega)
    exact ⟨_, _, hplen.trans (by omega)⟩

/-- Settles O18. -/
theorem countIsTheExactPowerOfTwo : Obligations.CountIsTheExactPowerOfTwo := by
  refine ⟨fun a b => ?_, fun p hp => ?_⟩
  · obtain ⟨hpos, hmax⟩ := cidrResponse_count_range a b
    have hcount : (cidrResponse a b).count.toNat = 2 ^ (32 - (cidrResponse a b).plen.toNat) := by
      rw [toNat_cidrResponse_count, toNat_cidrResponse_plen]
    exact ⟨hcount, hpos, hmax, cidrResponse_count_of_plen, cidrResponse_count_of_plen, cidrResponse_count_of_plen,
      cidrResponse_count_of_plen⟩
  · obtain ⟨a, b, rfl⟩ := exists_computePrefix_plen hp
    exact ⟨a, b, toNat_cidrResponse_plen a b, toNat_cidrResponse_count a b⟩

/-- In a contiguous mask, every bit above a 1 is a 1 (R51). -/
theorem getLsbD_of_maskWf {m : Word} (hm : maskWf m = true) {i j : Nat} (hij : i ≤ j) (hj : j < 32)
    (hone : m.getLsbD i = true) : m.getLsbD j = true := by
  induction j, hij using Nat.le_induction with
  | base => exact hone
  | succ j _ ih => exact maskWf_iff.mp hm j (by omega) (ih (by omega))

/-- Every contiguous mask is a MASK: that of itself and all ones, whose E it is (R49, R51). -/
theorem computePrefix_allOnes_mask {m : Word} (hm : maskWf m = true) :
    (computePrefix m (BitVec.allOnes 32)).mask = m := by
  have hequal : equalBits m (BitVec.allOnes 32) = m := by
    rw [equalBits, BitVec.xor_allOnes, BitVec.not_not]
  refine BitVec.eq_of_getLsbD_eq fun i hi => Bool.eq_iff_iff.mpr ?_
  rw [getLsbD_computePrefix_mask_iff_forall _ _ hi, hequal]
  exact ⟨fun hall => hall i (Nat.le_refl i) hi, fun hone _ hij hj => getLsbD_of_maskWf hm hij hj hone⟩

/-- A mask whose complement is 2^k − 1 has its 1s from bit k up, so it is contiguous (R59). -/
theorem maskWf_of_toNat_not {m : Word} {k : Nat} (h : (~~~m).toNat = 2 ^ k - 1) : maskWf m = true := by
  have hbit : ∀ i, i < 32 → (m.getLsbD i = true ↔ k ≤ i) := fun i hi => by
    have hnot : (!m.getLsbD i) = decide (i < k) := by
      rw [← Nat.testBit_two_pow_sub_one, ← h, BitVec.testBit_toNat, BitVec.getLsbD_not, decide_eq_true hi,
        Bool.true_and]
    rw [Bool.not_eq_eq_eq_not.mp hnot, Bool.not_eq_true', decide_eq_false_iff_not, Nat.not_lt]
  rw [maskWf_iff]
  intro i hi
  rw [hbit i (by omega), hbit (i + 1) (by omega)]
  exact Nat.le_succ_of_le

/-- The two forms of the count agree on a mask exactly when it is contiguous (R59). -/
theorem two_pow_sub_popcount32_eq_iff (m : Word) :
    2 ^ (32 - popcount32 m) = (~~~m).toNat + 1 ↔ maskWf m = true := by
  constructor
  · intro h
    exact maskWf_of_toNat_not (Nat.eq_sub_of_add_eq h.symm)
  · intro hm
    have hpop := popcount32_computePrefix_mask m (BitVec.allOnes 32)
    have hnot := toNat_not_computePrefix_mask m (BitVec.allOnes 32)
    rw [computePrefix_allOnes_mask hm] at hpop hnot
    rw [hpop, hnot, Nat.sub_add_cancel Nat.one_le_two_pow]

/-- Settles O19. -/
theorem countIsTheNegatedMaskPlusOne : Obligations.CountIsTheNegatedMaskPlusOne := by
  refine ⟨fun a b => ?_, two_pow_sub_popcount32_eq_iff⟩
  have hnot := toNat_not_computePrefix_mask a b
  rw [toNat_cidrResponse_count, toNat_cidrResponse_plen, cidrResponse_mask]
  refine ⟨?_, hnot, maskWf_computePrefix_mask a b⟩
  rw [hnot, Nat.sub_add_cancel Nat.one_le_two_pow]

/-- Settles O20: the single 1 of COUNT is bit 32 − PLEN. -/
theorem countFieldLosesNothing : Obligations.CountFieldLosesNothing := by
  intro a b
  obtain ⟨_, hmax⟩ := cidrResponse_count_range a b
  refine ⟨toNat_cidrResponse_count a b, by omega, ?_, ?_, fun hpos => ?_, fun hzero => ?_⟩
  · refine BitVec.eq_of_getLsbD_eq fun i _ => ?_
    have habove : 32 - (computePrefix a b).plen ≠ 33 + i := by omega
    rw [BitVec.getLsbD_extractLsb', getLsbD_cidrResponse_count, decide_eq_false habove, Bool.and_false]
    exact BitVec.getLsbD_zero.symm
  · rw [getLsbD_cidrResponse_count, decide_eq_true_iff, cidrResponse_plen_eq_zero_iff]
    omega
  · rw [toNat_cidrResponse_plen] at hpos ⊢
    rw [BitVec.extractLsb'_toNat, Nat.shiftRight_zero, toNat_cidrResponse_count]
    exact Nat.mod_eq_of_lt (Nat.pow_lt_pow_right (by decide) (by omega))
  · rw [cidrResponse_count_of_plen hzero]
    rfl

end Sys2Proof.Machine
end

-- The CIDR operation (R65): its answer where MASK and PLEN are known, and its symmetry (R66).
section
namespace Sys2Proof.Machine

/-- Below PLEN 32, A and B differ at bit 31 − PLEN, where the scan stopped (R50, R65, R67 (e)). -/
theorem getLsbD_ne_at_computePrefix_plen {a b : Word} (hlt : (computePrefix a b).plen < 32) :
    a.getLsbD (31 - (computePrefix a b).plen) ≠ b.getLsbD (31 - (computePrefix a b).plen) := by
  rw [computePrefix_plen] at hlt ⊢
  exact mt (getLsbD_equalBits_iff a b (by omega)).mpr (leadingRun_stop hlt)

/-- Operands that differ in bit 0 alone have all other bits in common (R65). -/
theorem computePrefix_xor_one (a : Word) : computePrefix a (a ^^^ 1) = ⟨0xFFFFFFFE, 31⟩ :=
  have hplen := computePrefix_xor_one_plen a
  (PrefixScan.mk.injEq ..).mpr ⟨computePrefix_mask_of_plen hplen, hplen⟩

/-- PLEN and MASK are symmetric, since E is (R54). -/
theorem computePrefix_comm (a b : Word) : computePrefix a b = computePrefix b a := by
  rw [computePrefix, computePrefix, equalBits, equalBits, BitVec.xor_comm]

/-- The response is symmetric: NET is the same from either address (R57, R66). -/
theorem cidrResponse_comm (a b : Word) : cidrResponse a b = cidrResponse b a := by
  rw [cidrResponse, cidrResponse, computePrefix_comm b a]
  exact (Response.mk.injEq ..).mpr ⟨rfl, rfl, and_computePrefix_mask a b, rfl⟩

/-- Swapped operands get the same answer (R66). -/
theorem exec_cidr_comm (a b : Word) (s : State) : exec (.cidr a b) s = exec (.cidr b a) s := by
  rw [exec_cidr, exec_cidr, cidrResponse_comm]

/-- The response, where MASK and PLEN are known (R65). -/
theorem exec_cidr_of_computePrefix {a b : Word} {p : PrefixScan} (s : State) (h : computePrefix a b = p) :
    exec (.cidr a b) s = .next { s with
      rsp := some ⟨p.mask, BitVec.ofNat 8 p.plen, a &&& p.mask, BitVec.ofNat 64 (2 ^ (32 - p.plen))⟩ } := by
  rw [← h]
  rfl

/-- CIDR of equal operands (R65). -/
theorem exec_cidr_self (a : Word) (s : State) :
    exec (.cidr a a) s = .next { s with rsp := some ⟨0xFFFFFFFF, 32, a, 1⟩ } := by
  rw [exec_cidr_of_computePrefix s (computePrefix_self a), show a &&& 0xFFFFFFFF = a from BitVec.and_allOnes]
  rfl

/-- CIDR of operands that differ at bit 31 (R65). -/
theorem exec_cidr_of_mismatch_at_top {a b : Word} (s : State) (hdiff : a.getLsbD 31 ≠ b.getLsbD 31) :
    exec (.cidr a b) s = .next { s with rsp := some ⟨0, 0, 0, 4294967296⟩ } := by
  rw [exec_cidr_of_computePrefix s (computePrefix_of_mismatch_at_top hdiff), show a &&& 0 = 0 from BitVec.and_zero]
  rfl

/-- Settles O21: that A and B agree down to bit 32 − PLEN is PLEN ≤ PLEN, read by `le_computePrefix_plen_iff`. -/
theorem cidrAnswersItsResponse : Obligations.CidrAnswersItsResponse := by
  refine ⟨decodeReq_append, fun a b s => ⟨cidrResponse a b, exec_cidr a b s, ?_⟩, fun _ _ => rfl, exec_cidr_self,
    fun _ _ => exec_cidr_of_mismatch_at_top, fun a s => exec_cidr_of_computePrefix s (computePrefix_xor_one a),
    fun a b k hk habove hdiff => ?_, fun _ _ _ _ => getLsbD_computePrefix_mask_of_mismatch, exec_cidr_comm,
    fun s => exec_cidr_of_computePrefix s (p := ⟨0xFFFFFFE0, 27⟩) (by decide)⟩
  · rw [toNat_cidrResponse_plen]
    have hle := computePrefix_plen_le a b
    exact ⟨hle, (le_computePrefix_plen_iff hle).mp (Nat.le_refl _), getLsbD_ne_at_computePrefix_plen,
      fun _ => getLsbD_computePrefix_mask_iff a b, rfl, toNat_cidrResponse_count a b⟩
  · rw [toNat_cidrResponse_plen, computePrefix_plen_of_first_mismatch (by omega) hdiff habove]
    omega

/-- Settles O23: the two responses are equal, so all their fields are. -/
theorem cidrIsSymmetric : Obligations.CidrIsSymmetric := by
  intro a b s
  rw [cidrResponse_comm b a]
  exact ⟨rfl, rfl, rfl, rfl, exec_cidr_comm a b s⟩

end Sys2Proof.Machine
end

-- The relations between the fields of a response (R67).
section
namespace Sys2Proof.Machine

/-- A is NET plus its part outside MASK (R56). -/
theorem toNat_eq_net_add_and_not_mask (a b : Word) :
    a.toNat = (cidrResponse a b).net.toNat + (a &&& ~~~(cidrResponse a b).mask).toNat := by
  have hdisjoint : (cidrResponse a b).net &&& (a &&& ~~~(cidrResponse a b).mask) = 0#32 := by
    rw [BitVec.and_comm a, ← BitVec.and_assoc, cidrResponse_net_and_not_mask]
    exact BitVec.zero_and
  have hunion : (cidrResponse a b).net ||| a &&& ~~~(cidrResponse a b).mask = a := by
    rw [cidrResponse_net, cidrResponse_mask, ← BitVec.and_or_distrib_left, BitVec.or_not_self, BitVec.and_allOnes]
  rw [← BitVec.toNat_add_of_and_eq_zero hdisjoint, BitVec.add_eq_or_of_and_eq_zero _ _ hdisjoint, hunion]

/-- The part of an address outside MASK is below COUNT (R59). -/
theorem and_not_mask_lt_count (a b : Word) :
    (a &&& ~~~(cidrResponse a b).mask).toNat < (cidrResponse a b).count.toNat := by
  have hle : (a &&& ~~~(cidrResponse a b).mask).toNat ≤ (~~~(cidrResponse a b).mask).toNat := by
    rw [BitVec.toNat_and]
    exact Nat.and_le_right
  rw [cidrResponse_mask, toNat_not_computePrefix_mask] at hle
  rw [toNat_cidrResponse_count]
  exact Nat.lt_of_le_pred (Nat.two_pow_pos _) hle

/-- A lies in the block of COUNT addresses that starts at NET (R67 (d)). -/
theorem cidrResponse_block (a b : Word) : (cidrResponse a b).net.toNat ≤ a.toNat ∧
    a.toNat ≤ (cidrResponse a b).net.toNat + (cidrResponse a b).count.toNat - 1 := by
  have hsplit := toNat_eq_net_add_and_not_mask a b
  have hrest := and_not_mask_lt_count a b
  omega

/-- A and B, which differ at bit 31 − PLEN, have no prefix of length PLEN + 1 in common (R67 (e)). -/
theorem div_two_pow_ne_at_computePrefix_plen {a b : Word} (hlt : (computePrefix a b).plen < 32) :
    a.toNat / 2 ^ (31 - (computePrefix a b).plen) ≠ b.toNat / 2 ^ (31 - (computePrefix a b).plen) := fun heq =>
  getLsbD_ne_at_computePrefix_plen hlt (toNat_div_two_pow_eq_iff.mp heq _ (Nat.le_refl _) (by omega))

/-- Settles O24: for (d), the response is that of B and A, too. -/
theorem responseFieldsAreRelated : Obligations.ResponseFieldsAreRelated := by
  intro a b r
  have hplen : r.plen.toNat = (computePrefix a b).plen := toNat_cidrResponse_plen a b
  have hcount : r.count.toNat = 2 ^ (32 - (computePrefix a b).plen) := toNat_cidrResponse_count a b
  have hsymm : r = cidrResponse b a := cidrResponse_comm a b
  refine ⟨?_, ?_, cidrResponse_net_and_not_mask a b, cidrResponse_block a b, hsymm ▸ cidrResponse_block b a,
    ?_, ?_⟩
  · rw [hcount]
    exact toNat_computePrefix_mask a b
  · rw [hcount, hplen, ← Nat.pow_add, Nat.sub_add_cancel (computePrefix_plen_le a b)]
  · rw [hplen]
    exact fun hlt => ⟨getLsbD_ne_at_computePrefix_plen hlt, div_two_pow_ne_at_computePrefix_plen hlt⟩
  · rw [hplen]
    exact fun _ => getLsbD_computePrefix_mask_iff a b

end Sys2Proof.Machine
end

-- Exceptions (R70): no request raises anything.
section
namespace Sys2Proof.Machine

/-- Every instruction answers a next state (R70). -/
theorem exists_exec (i : Instr) (s : State) : ∃ t, exec i s = .next t := by
  cases i with
  | cidr a b => exact ⟨_, exec_cidr a b s⟩

/-- Settles O38: the type of faults has no constructor. -/
theorem nothingIsEverRaised : Obligations.NothingIsEverRaised :=
  ⟨exists_exec, exists_step, fun f => nomatch f⟩

end Sys2Proof.Machine
end

-- Reset (R82 to R84): it works through what is in flight, and afterwards a request is served as if nothing had come before.
section
namespace Sys2Proof.Machine

/-- With anything in flight, ARBITRATION finds a request. -/
theorem exists_takeArbitrated (n : Nat) {l : List Captured} (h : l ≠ []) :
    ∃ c others, takeArbitrated n l = some (c, others) := by
  obtain ⟨⟨c, others⟩, hc⟩ := Option.ne_none_iff_exists'.mp (mt takeArbitrated_eq_none_iff.mp h)
  exact ⟨c, others, hc⟩

/-- The answer to a request that decodes to CIDR is the response of CIDR to its operands (R14). -/
theorem Captured.answer_of_decodeReq {c : Captured} {a b : Word} (h : decodeReq c.req = .cidr a b) :
    c.answer = cidrResponse a b := by
  rw [Captured.answer, h]

/-- A request that reset completes is served like any other (R83). -/
theorem resolveAtReset_true (c : Captured) (s : State) : resolveAtReset true c s = completeRequest c s := rfl

/-- Settles O40: completing is a service, and a reset step resolves the request that ARBITRATION finds. -/
theorem resetDropsOrCompletesARequest : Obligations.ResetDropsOrCompletesARequest := by
  refine ⟨fun s c a b hdecode => ⟨rfl, ?_⟩, fun s rest hreset hne => ?_⟩
  · rw [resolveAtReset_true, completeRequest_eq, Captured.delivery, Captured.answer_of_decodeReq hdecode]
  · obtain ⟨c, others, hc⟩ := exists_takeArbitrated (Config.arbitration s.draws) hne
    exact ⟨c, others, takeArbitrated_spec hc, step_of_reset_some hreset hc⟩

/-- A reset step with requests in flight takes one of them out of flight, and leaves the events and the request port alone. -/
theorem step_of_reset_takes_one {s : State} {rest : List Event} (hreset : s.events = .reset :: rest)
    (hne : s.inflight ≠ []) :
    ∃ u, step s = .next u ∧ u.events = s.events ∧ u.port = s.port ∧ s.inflight.length = u.inflight.length + 1 := by
  obtain ⟨c, others, hc⟩ := exists_takeArbitrated (Config.arbitration s.draws) hne
  have hlength := takeOldest_length (takeArbitrated_spec hc)
  cases hfate : Config.resetInflight s.draws with
  | false => exact ⟨_, step_of_reset_dropped hreset hc hfate, rfl, rfl, hlength⟩
  | true => exact ⟨_, step_of_reset_completed hreset hc hfate, rfl, rfl, hlength⟩

/-- A reset ends after a step for each request in flight and one more: nothing is in flight, the response port is empty, and the
request port is as it was (R82, R83). -/
theorem runSteps_of_reset {s : State} {rest : List Event} (hreset : s.events = .reset :: rest) :
    ∃ t, runSteps (s.inflight.length + 1) s = .next t ∧
      t.inflight = [] ∧ t.rsp = none ∧ t.events = rest ∧ t.port = s.port := by
  induction hn : s.inflight.length generalizing s with
  | zero =>
    have hnone : s.inflight = [] := List.length_eq_zero_iff.mp hn
    exact ⟨_, runSteps_succ 0 (step_of_reset_none hreset hnone), hnone, rfl, rfl, rfl⟩
  | succ n ih =>
    obtain ⟨u, hstep, hevents, hport, hlength⟩ := step_of_reset_takes_one hreset (List.ne_nil_of_length_eq_add_one hn)
    obtain ⟨t, hrun, hend⟩ := ih (hevents.trans hreset) (by omega)
    exact ⟨t, (runSteps_succ (n + 1) hstep).trans hrun, hport ▸ hend⟩

/-- No step takes a delivery out of the log. -/
theorem step_log_prefix {s t : State} (h : step s = .next t) : s.log <+: t.log := by
  rcases step_delivers_nothing_or_one h with ⟨-, hlog⟩ | ⟨c, -, -, hlog⟩
  · rw [hlog]
  · exact ⟨[c.delivery], hlog.symm⟩

/-- No run takes a delivery out of the log. -/
theorem runSteps_log_prefix {k : Nat} {s t : State} (h : runSteps k s = .next t) : s.log <+: t.log := by
  induction k generalizing s with
  | zero =>
    cases h
    exact List.prefix_rfl
  | succ k ih =>
    obtain ⟨u, hu, hrun⟩ := runSteps_succ_eq_next h
    exact (step_log_prefix hu).trans (ih hrun)

/-- What a run adds to the log brings each requester, in order, responses that were due to it; what it is due at the end comes
after them. -/
theorem runSteps_new_dueTo_sublist {k : Nat} {s t : State} (h : runSteps k s = .next t) :
    ∃ new, t.log = s.log ++ new ∧ ∀ q, (responsesTo q new ++ t.dueTo q).Sublist (s.dueTo q) := by
  obtain ⟨new, hlog⟩ := runSteps_log_prefix h
  refine ⟨new, hlog.symm, fun q => ?_⟩
  obtain ⟨new', hnew', hdue⟩ := runSteps_dueTo_sublist q h
  rw [← hlog, responsesTo_append, List.append_cancel_left_eq] at hnew'
  exact hnew' ▸ hdue

/-- Settles O41: what is still to be accepted is due before and after the reset, so what the reset delivers was in flight. -/
theorem resetEndsWithNothingInFlight : Obligations.ResetEndsWithNothingInFlight := by
  intro s rest hreset
  obtain ⟨t, hrun, hinflight, hrsp, hevents, hport⟩ := runSteps_of_reset hreset
  obtain ⟨new, hlog, hdue⟩ := runSteps_new_dueTo_sublist hrun
  refine ⟨t, new, hrun, hinflight, hrsp, hevents, hport, hlog, fun q => ?_⟩
  have hs : s.dueTo q = s.owedTo q ++ answersTo q (acceptedBy rest s.port) := by
    rw [State.dueTo, hreset, acceptedBy]
  have ht : t.dueTo q = answersTo q (acceptedBy rest s.port) := by
    simp [State.dueTo, State.owedTo, hinflight, hevents, hport]
  have hall := hdue q
  rwa [hs, ht, List.append_sublist_append_right] at hall

/-- A run is a first part and the rest of the run. -/
theorem runSteps_add {j : Nat} (k : Nat) {s t : State} (h : runSteps j s = .next t) :
    runSteps (j + k) s = runSteps k t := by
  induction j generalizing s with
  | zero =>
    cases h
    rw [Nat.zero_add]
  | succ j ih =>
    obtain ⟨u, hu, hrun⟩ := runSteps_succ_eq_next h
    rw [Nat.succ_add, runSteps_succ (j + k) hu, ih hrun]

/-- The answer to a request captured from the request port is the response of CIDR to the operands presented (R29). -/
theorem Presented.answer_capture (p : Presented) : p.capture.answer = cidrResponse p.a p.b :=
  Captured.answer_of_decodeReq (decodeReq_append p.a p.b)

/-- With nothing in flight, a request that is presented, accepted and served gets the response of CIDR to its own operands, and
nothing is in flight again (R84). -/
theorem runSteps_of_present_accept_serve {s : State} {p : Presented} {rest : List Event} (hnone : s.inflight = [])
    (hevents : s.events = .drive (some p) :: .accept :: .serve p.requester :: rest) :
    runSteps 3 s = .next { s with
      port := none, rsp := some (cidrResponse p.a p.b), events := rest
      log := s.log ++ [⟨p.requester, cidrResponse p.a p.b⟩] } := by
  have holdest : takeOldest p.requester (s.inflight ++ [p.capture]) = some (p.capture, s.inflight) := by
    rw [hnone]
    exact takeOldest_cons_self p.capture []
  rw [runSteps_succ 2 (step_of_drive hevents), runSteps_succ 1 (step_of_accept rfl), State.acceptRequest_of_some rfl,
    runSteps_succ 0 (step_of_serve_some rfl holdest), Captured.delivery, p.answer_capture]
  rfl

/-- Settles O42: the reset leaves nothing in flight, so the request that comes after it is the only one there is. -/
theorem firstRequestAfterResetIsServed : Obligations.FirstRequestAfterResetIsServed := by
  intro s q a b hevents
  obtain ⟨t, hrun, hnone, -, hrest, -⟩ := runSteps_of_reset hevents
  have hserved := runSteps_of_present_accept_serve (p := ⟨q, a, b⟩) hnone hrest
  exact ⟨_, t.log, (runSteps_add 3 hrun).trans hserved, rfl, rfl, hnone⟩

end Sys2Proof.Machine
end
